-- ==== Sys2Proof/Word.lean ====
section
/-!
DEFINITION. The value types of the block: characters, strings and bit strings (00_scope.md R6, R7).
-/

namespace Sys2Proof

/-- A character is an 8-bit value (00_scope.md R7). -/
abbrev Byte := BitVec 8

/-- A string is a finite sequence of characters, index 0 the leftmost (00_scope.md R7). -/
abbrev Str := List Byte

/-- A bit string is a finite sequence of bits, index 0 the leftmost and most significant
(00_scope.md R6). -/
abbrev Bits := List Bool

/-- The string of a text literal; every character written in this model is ASCII (00_scope.md R7). -/
def ascii (t : String) : Str := t.toList.map fun c => BitVec.ofNat 8 c.toNat

end Sys2Proof
end

