-- ==== Sys2Proof/Config.lean ====
section
/-!
DEFINITION. The parameters of the block (00_scope.md R5): the sizes, fixed at the value the spec decides (log entry 8),
and the three replaceable parameters as one record that the operations take as an argument. The values the block runs at
stand in Machine/Constants.lean.
-/

namespace Sys2Proof

/-- `SMAX`: most characters in one string operand slot (00_scope.md R5). -/
abbrev SMAX : Nat := 32

/-- `BMAX`: most bits in the bit-string operand slot (00_scope.md R5). -/
abbrev BMAX : Nat := 192

/-- `NMAX`: largest value of the `N` command field (00_scope.md R5). -/
abbrev NMAX : Nat := 255

/-- `URI_CAP`: character capacity of the `URI` register (00_scope.md R5). -/
abbrev URI_CAP : Nat := 64

/-- `AUX_CAP`: capacity of `AUXBITS` in bits and of `AUXTEXT` in characters (00_scope.md R5). -/
abbrev AUX_CAP : Nat := 255

/-- The six-bit code table: one row per symbol with its code (41_sixbit_codec.md R101). -/
abbrev SixbitTable := List (Byte × BitVec 6)

/-- What the source fixes of `SIXBIT_TABLE` (41_sixbit_codec.md R101): one code per symbol, no two symbols share a
code, the code of space is zero. The alphabet is the table's domain (R100). -/
abbrev SixbitTable.Allowed (table : SixbitTable) : Prop :=
  (table.map Prod.fst).Nodup ∧ (table.map Prod.snd).Nodup ∧ ((0x20, 0) : Byte × BitVec 6) ∈ table

/-- `SGTIN_ELSE_EMIT`: the partition bits written for partition code `111` (45_sgtin_encoder.md R172). -/
inductive ElseEmit where
  /-- the selected row's code, `110` -/
  | row
  /-- the supplied code, `111` -/
  | echo
  deriving DecidableEq, Repr

/-- The parameters a model may take as arguments (00_scope.md R5). -/
structure Params where
  /-- `SIXBIT_TABLE` -/
  sixbitTable : SixbitTable
  /-- `SGTIN_ELSE_EMIT` -/
  sgtinElseEmit : ElseEmit
  /-- `TIAI_URI_PREFIX` -/
  tiaiUriPrefix : Str
  deriving DecidableEq, Repr

/-- The constraints on the parameters: on the table 41_sixbit_codec.md R101; `SGTIN_ELSE_EMIT` is `ROW` or `ECHO` by its
type; `TIAI_URI_PREFIX` is ASCII text, all characters below 0x80 (00_scope.md R5), and short enough for every URI to fit
(43_field_packing.md R141). -/
abbrev Params.Allowed (p : Params) : Prop :=
  p.sixbitTable.Allowed ∧ (∀ c ∈ p.tiaiUriPrefix, c.toNat < 0x80) ∧ p.tiaiUriPrefix.length + 25 ≤ URI_CAP

end Sys2Proof
end

