-- ==== Sys2Proof/Syntax.lean ====
section
/-!
DEFINITION. The encoded command as it stands on the command port (30_encoding.md R55 to R57) and the eleven commands
with their operands taken out of it (30_encoding.md R58).
-/

namespace Sys2Proof

/-- A string operand slot `Sk`: a 6-bit length and 32 characters (10_state.md R36, 30_encoding.md R57). -/
structure StringSlot where
  /-- `Sk.len`; 33 to 63 can be presented and make a command that uses the slot illegal -/
  len : BitVec 6
  /-- `Sk.ch[0..31]` -/
  ch : Vector Byte SMAX
  deriving DecidableEq, Repr

/-- The bit-string operand slot `B0`: an 8-bit length and 192 bits (10_state.md R36, 30_encoding.md R57). -/
structure BitSlot where
  /-- `B0.len`; 193 to 255 can be presented and make `DEC6` illegal -/
  len : BitVec 8
  /-- `B0.b[0..191]`, index 0 leftmost -/
  b : Vector Bool BMAX
  deriving DecidableEq, Repr

/-- A command as presented: the 16-bit command word and every operand slot (30_encoding.md R55). -/
structure Command where
  /-- `CMD[15:0]` -/
  cmd : BitVec 16
  s0 : StringSlot
  s1 : StringSlot
  s2 : StringSlot
  s3 : StringSlot
  b0 : BitSlot
  deriving DecidableEq, Repr

/-- The commands of spec/opcode_table.json, one constructor a row, each with the operands it uses
(30_encoding.md R58). -/
inductive Instr where
  /-- `GID.DPCI` (44_gid_encoders.md R150) -/
  | gidDpci (department cls item serial : Str)
  /-- `GID.GTIN` (44_gid_encoders.md R151) -/
  | gidGtin (gtin serial : Str)
  /-- `SGTIN` (45_sgtin_encoder.md R170) -/
  | sgtin (gtin serial : Str) (partition : BitVec 3)
  /-- `TCIN` (46_tcin_encoder.md R185) -/
  | tcin (item serial : Str)
  /-- `TIAI.D` (47_tiai_encoders.md R196) -/
  | tiaiD (reference assetId : Str)
  /-- `TIAI.C` (47_tiai_encoders.md R197) -/
  | tiaiC (reference assetId : Str)
  /-- `TIAI.H` (47_tiai_encoders.md R198) -/
  | tiaiH (reference assetId : Str)
  /-- `CHKDIG` (40_check_digit.md R91) -/
  | chkdig (digits : Str)
  /-- `ENC6` (41_sixbit_codec.md R105) -/
  | enc6 (text : Str) (minBits : BitVec 8)
  /-- `DEC6` (41_sixbit_codec.md R106) -/
  | dec6 (bits : Bits) (minChars : BitVec 8)
  /-- `PARTQ` (42_partition_table.md R122) -/
  | partq (partition : BitVec 3)
  deriving DecidableEq, Repr

end Sys2Proof
end

