-- ==== Sys2Proof/WellFormed.lean ====
section
/-!
DEFINITION. What makes a command presentable: every operand fits its slot (20_memory.md R44, 30_encoding.md R57).
Character values and digit classes are not checked here: any 8-bit value may be presented (30_encoding.md R57).
-/

namespace Sys2Proof

/-- The string operands of a command, in slot order `S0`, `S1`, … (30_encoding.md R58). -/
def Instr.strings : Instr → List Str
  | .gidDpci department cls item serial => [department, cls, item, serial]
  | .gidGtin gtin serial => [gtin, serial]
  | .sgtin gtin serial _ => [gtin, serial]
  | .tcin item serial => [item, serial]
  | .tiaiD reference assetId => [reference, assetId]
  | .tiaiC reference assetId => [reference, assetId]
  | .tiaiH reference assetId => [reference, assetId]
  | .chkdig digits => [digits]
  | .enc6 text _ => [text]
  | .dec6 _ _ => []
  | .partq _ => []

/-- The bit-string operand `B0` of a command, empty where it uses none (30_encoding.md R58). -/
def Instr.bitString : Instr → Bits
  | .gidDpci _ _ _ _ => []
  | .gidGtin _ _ => []
  | .sgtin _ _ _ => []
  | .tcin _ _ => []
  | .tiaiD _ _ => []
  | .tiaiC _ _ => []
  | .tiaiH _ _ => []
  | .chkdig _ => []
  | .enc6 _ _ => []
  | .dec6 bits _ => bits
  | .partq _ => []

/-- A command is well formed when each string operand has at most `SMAX` characters and the bit string at most
`BMAX` bits (20_memory.md R44). -/
def Instr.wellFormed (i : Instr) : Bool :=
  i.strings.all (fun s => decide (s.length ≤ SMAX)) && decide (i.bitString.length ≤ BMAX)

end Sys2Proof
end

