-- ==== Sys2Proof/Decode.lean ====
section
/-!
DEFINITION. The decoder of a presented command (30_encoding.md R55 to R61), total and rejecting by name, and the
encoder written from the same tables.
-/

namespace Sys2Proof

/-! ### Operand slots -/

/-- The string a slot holds: its first `len` characters; what stands beyond is ignored (30_encoding.md R57). -/
def StringSlot.text (slot : StringSlot) : Str := slot.ch.toList.take slot.len.toNat

/-- The bit string the slot holds, leftmost first (30_encoding.md R57). -/
def BitSlot.bits (slot : BitSlot) : Bits := slot.b.toList.take slot.len.toNat

/-- `n` entries: the list's first ones, then `filler`. -/
def fillVector {α : Type} (n : Nat) (filler : α) (l : List α) : Vector α n :=
  ⟨((l ++ List.replicate n filler).take n).toArray, by simp⟩

/-- The slot that presents a string: its length, its characters, then zeros (20_memory.md R43). -/
def StringSlot.ofStr (s : Str) : StringSlot := ⟨BitVec.ofNat 6 s.length, fillVector SMAX 0 s⟩

/-- The slot that presents a bit string (20_memory.md R43). -/
def BitSlot.ofBits (b : Bits) : BitSlot := ⟨BitVec.ofNat 8 b.length, fillVector BMAX false b⟩

/-- A command word with every operand slot zero. -/
def Command.bare (cmd : BitVec 16) : Command :=
  ⟨cmd, .ofStr [], .ofStr [], .ofStr [], .ofStr [], .ofBits []⟩

/-! ### Command word fields (30_encoding.md R56) -/

/-- `OP = CMD[3:0]`. -/
def Command.op (c : Command) : BitVec 4 := c.cmd.extractLsb' 0 4

/-- `P = CMD[6:4]`. -/
def Command.p (c : Command) : BitVec 3 := c.cmd.extractLsb' 4 3

/-- `RSV = CMD[7]`. -/
def Command.rsv (c : Command) : Bool := c.cmd.getLsbD 7

/-- `N = CMD[15:8]`. -/
def Command.n (c : Command) : BitVec 8 := c.cmd.extractLsb' 8 8

/-- The command word with `RSV = 0` and the given fields (30_encoding.md R56). -/
def commandWord (op : BitVec 4) (p : BitVec 3) (n : BitVec 8) : BitVec 16 := n ++ (0#1 ++ (p ++ op))

/-! ### The decoder -/

/-- Why a presented command is illegal (30_encoding.md R60). -/
inductive DecodeReject where
  /-- `OP` is 0x0, 0xC, 0xD, 0xE or 0xF: R60(a) -/
  | reservedOp (op : BitVec 4)
  /-- `RSV = 1`: R60(b) -/
  | reservedBit
  /-- a string slot the command uses has `Sk.len > SMAX`: R60(c) -/
  | stringTooLong (slot : Fin 4)
  /-- `DEC6` with `B0.len > BMAX`: R60(d) -/
  | bitsTooLong
  deriving DecidableEq, Repr

/-- Take a used string slot's contents, or reject its length (30_encoding.md R60(c)). -/
def StringSlot.take (k : Fin 4) (slot : StringSlot) : Except DecodeReject Str :=
  if slot.len.toNat ≤ SMAX then .ok slot.text else .error (.stringTooLong k)

/-- Take the bit-string slot's contents, or reject its length (30_encoding.md R60(d)). -/
def BitSlot.take (slot : BitSlot) : Except DecodeReject Bits :=
  if slot.len.toNat ≤ BMAX then .ok slot.bits else .error .bitsTooLong

/-- Decode a presented command: `RSV` must be 0, `OP` alone selects (30_encoding.md R59), and only the operands the
selected command uses are looked at (R58, R61). -/
def decode (c : Command) : Except DecodeReject Instr :=
  if c.rsv then .error .reservedBit
  else match c.op.toNat with
    | 0x1 => do
        let department ← c.s0.take 0
        let cls ← c.s1.take 1
        let item ← c.s2.take 2
        let serial ← c.s3.take 3
        return .gidDpci department cls item serial
    | 0x2 => do
        let gtin ← c.s0.take 0
        let serial ← c.s1.take 1
        return .gidGtin gtin serial
    | 0x3 => do
        let gtin ← c.s0.take 0
        let serial ← c.s1.take 1
        return .sgtin gtin serial c.p
    | 0x4 => do
        let item ← c.s0.take 0
        let serial ← c.s1.take 1
        return .tcin item serial
    | 0x5 => do
        let reference ← c.s0.take 0
        let assetId ← c.s1.take 1
        return .tiaiD reference assetId
    | 0x6 => do
        let reference ← c.s0.take 0
        let assetId ← c.s1.take 1
        return .tiaiC reference assetId
    | 0x7 => do
        let reference ← c.s0.take 0
        let assetId ← c.s1.take 1
        return .tiaiH reference assetId
    | 0x8 => do
        let digits ← c.s0.take 0
        return .chkdig digits
    | 0x9 => do
        let text ← c.s0.take 0
        return .enc6 text c.n
    | 0xA => do
        let bits ← c.b0.take
        return .dec6 bits c.n
    | 0xB => return .partq c.p
    | _ => .error (.reservedOp c.op)

/-! ### The encoder -/

/-- Present a command: its command word with unused fields zero and unused slots empty (30_encoding.md R58, R63). -/
def encode : Instr → Command
  | .gidDpci department cls item serial =>
      { Command.bare (commandWord 0x1 0 0) with
        s0 := .ofStr department, s1 := .ofStr cls, s2 := .ofStr item, s3 := .ofStr serial }
  | .gidGtin gtin serial =>
      { Command.bare (commandWord 0x2 0 0) with s0 := .ofStr gtin, s1 := .ofStr serial }
  | .sgtin gtin serial partition =>
      { Command.bare (commandWord 0x3 partition 0) with s0 := .ofStr gtin, s1 := .ofStr serial }
  | .tcin item serial =>
      { Command.bare (commandWord 0x4 0 0) with s0 := .ofStr item, s1 := .ofStr serial }
  | .tiaiD reference assetId =>
      { Command.bare (commandWord 0x5 0 0) with s0 := .ofStr reference, s1 := .ofStr assetId }
  | .tiaiC reference assetId =>
      { Command.bare (commandWord 0x6 0 0) with s0 := .ofStr reference, s1 := .ofStr assetId }
  | .tiaiH reference assetId =>
      { Command.bare (commandWord 0x7 0 0) with s0 := .ofStr reference, s1 := .ofStr assetId }
  | .chkdig digits => { Command.bare (commandWord 0x8 0 0) with s0 := .ofStr digits }
  | .enc6 text minBits => { Command.bare (commandWord 0x9 0 minBits) with s0 := .ofStr text }
  | .dec6 bits minChars => { Command.bare (commandWord 0xA 0 minChars) with b0 := .ofBits bits }
  | .partq partition => Command.bare (commandWord 0xB partition 0)

/-! ### The opcode map in match and mask form -/

/-- The `mask` of every row of the opcode map: the `OP` and `RSV` bits (30_encoding.md R59). -/
def opcodeMask : BitVec 16 := 0x008F

/-- The `match` value of a command's row (30_encoding.md R59). -/
def Instr.opcodeMatch : Instr → BitVec 16
  | .gidDpci _ _ _ _ => 0x0001
  | .gidGtin _ _ => 0x0002
  | .sgtin _ _ _ => 0x0003
  | .tcin _ _ => 0x0004
  | .tiaiD _ _ => 0x0005
  | .tiaiC _ _ => 0x0006
  | .tiaiH _ _ => 0x0007
  | .chkdig _ => 0x0008
  | .enc6 _ _ => 0x0009
  | .dec6 _ _ => 0x000A
  | .partq _ => 0x000B

/-! ### The host's view of the decoder -/

/-- The command whose word has the `nbits` low bits of `w`, every operand slot zero. -/
def tableCommand (nbits w : Nat) : Command := Command.bare (BitVec.ofNat 16 (w % 2 ^ nbits))

/-- What the decoder reads from the command word `w` with every operand slot zero, none where it rejects. -/
def decodeTableWord (nbits w : Nat) : Option Instr := (decode (tableCommand nbits w)).toOption

end Sys2Proof
end

