-- ==== Sys2Proof/Machine/State.lean ====
section
/-!
DEFINITION. The state of the block (10_state.md R23 to R30), the port samples the host presents (R36), the reasons a
step can stop (none the spec gives), and the state after reset (R35).
-/

namespace Sys2Proof.Machine

/-- The result registers, all the state the block has (10_state.md R27). -/
structure ResultRegs where
  /-- `STATUS[3:0]`, the outcome code of the last executed command (10_state.md R23) -/
  status : BitVec 4
  /-- `TAG[95:0]`, the tag payload, `TAG[95:88]` the header (10_state.md R24) -/
  tag : BitVec 96
  /-- `URI`: the characters `URI.ch[0 .. URI.len)` (10_state.md R26; log entry 9) -/
  uri : Str
  /-- `AUXBITS`: the bits `AUXBITS.b[0 .. AUXBITS.len)` (10_state.md R28; log entry 9) -/
  auxBits : Bits
  /-- `AUXTEXT`: the characters `AUXTEXT.ch[0 .. AUXTEXT.len)` (10_state.md R29; log entry 9) -/
  auxText : Str
  /-- `PROW[20:0]`, the partition row register (10_state.md R30) -/
  prow : BitVec 21
  deriving DecidableEq, Repr

/-- What the host drives on the input ports at one moment (10_state.md R36). -/
structure PortIn where
  /-- `rst`, the reset request -/
  rst : Bool
  /-- `cmd_valid` -/
  cmdValid : Bool
  /-- `CMD` and the operand slots `S0`..`S3`, `B0` -/
  command : Command
  deriving DecidableEq, Repr

/-- The machine: the block's registers and the host's coming port samples. -/
structure State where
  /-- the block's own state -/
  regs : ResultRegs
  /-- the MODEL's own field (log entry 1): the port samples the host still presents, oldest first -/
  inputs : List PortIn
  deriving DecidableEq, Repr

/-- Why the machine stops for good: never. Every fault of the spec ends its command with a next state
(60_exceptions.md R219), and every accepted command completes (70_reset_and_hazards.md R244). Safe: nothing is
stopped that the block would run. -/
inductive Fault where
  deriving DecidableEq, Repr

/-- Why the model gives a command no meaning. -/
inductive Refusal where
  /-- Raised by an arm of `exec` that has no meaning yet; no arm is in that case. Safe: a refusal proves nothing. -/
  | notModelled (mnemonic : String)
  deriving DecidableEq, Repr

/-- The result registers at their cleared values: 0 or empty (10_state.md R31). -/
def ResultRegs.cleared : ResultRegs := ⟨0, 0, [], [], [], 0⟩

/-- The machine right after reset (10_state.md R35): `STATUS` is `IDLE` (0x0), everything else zero or empty, and
no port sample presented yet (log entry 1). -/
def State.reset : State := ⟨ResultRegs.cleared, []⟩

end Sys2Proof.Machine
end

