-- ==== Sys2Proof/Machine/Flags.lean ====
section
/-!
DEFINITION. The one status register's codes (10_state.md R23) and the faults of a command with the code each writes
(60_exceptions.md R216).
-/

namespace Sys2Proof.Machine

/-- `IDLE`: no command has been executed since reset. -/
def statusIdle : BitVec 4 := 0x0

/-- `OK`: the last command completed. -/
def statusOk : BitVec 4 := 0x1

/-- The faults a command can end in (60_exceptions.md R216). They do not stop the machine (R219). -/
inductive CommandFault where
  | invalidInput
  | unsupportedCharacter
  | invalidBitGroup
  | illegalCommand
  deriving DecidableEq, Repr

/-- The code a fault writes to `STATUS` (60_exceptions.md R216). -/
def CommandFault.code : CommandFault → BitVec 4
  | .invalidInput => 0x2
  | .unsupportedCharacter => 0x3
  | .invalidBitGroup => 0x4
  | .illegalCommand => 0x5

end Sys2Proof.Machine
end

