-- ==== Sys2Proof/Machine/Constants.lean ====
section
/-!
DEFINITION. The constants of the block (10_state.md R32), at the values the spec decides.
-/

namespace Sys2Proof.Machine

/-- Character `'0'`, 0x30 (00_scope.md R7). -/
abbrev chZero : Byte := 0x30

/-- Character `'.'`, 0x2E, the separator of URI components (43_field_packing.md R136). -/
abbrev chDot : Byte := 0x2E

/-- The space character, 0x20 (00_scope.md R7). -/
abbrev chSpace : Byte := 0x20

/-! ### Headers and filters (30_encoding.md R71, R77), leftmost bit first -/

/-- GID-96: `00110101`. -/
def headerGid : Bits := [false, false, true, true, false, true, false, true]

/-- SGTIN-96: `00110000`. -/
def headerSgtin : Bits := [false, false, true, true, false, false, false, false]

/-- TCIN-96: `00001000`. -/
def headerTcin : Bits := [false, false, false, false, true, false, false, false]

/-- TIAI-96: `00001010`. -/
def headerTiai : Bits := [false, false, false, false, true, false, true, false]

/-- SGTIN-96 filter: `001`. -/
def filterSgtin : Bits := [false, false, true]

/-- TCIN-96 filter: `000`. -/
def filterTcin : Bits := [false, false, false]

/-- TIAI-96 filter: `000`. -/
def filterTiai : Bits := [false, false, false]

/-! ### Fixed URI texts (43_field_packing.md R136) -/

def uriGid : Str := ascii "urn:epc:tag:gid-96:"
def uriSgtin : Str := ascii "urn:epc:tag:sgtin-96:1."
def uriTcin : Str := ascii "urn:epc:tag:tcin-96:0."

/-! ### The six-bit table (41_sixbit_codec.md R101, default; log entry 5) -/

def sixbitPunctuation : SixbitTable :=
  [(0x20, 0b000000), (0x23, 0b100011), (0x2D, 0b101101), (0x2F, 0b101111)]

def sixbitDigits : SixbitTable :=
  [(0x30, 0b110000), (0x31, 0b110001), (0x32, 0b110010), (0x33, 0b110011), (0x34, 0b110100),
   (0x35, 0b110101), (0x36, 0b110110), (0x37, 0b110111), (0x38, 0b111000), (0x39, 0b111001)]

def sixbitAToM : SixbitTable :=
  [(0x41, 0b000001), (0x42, 0b000010), (0x43, 0b000011), (0x44, 0b000100), (0x45, 0b000101),
   (0x46, 0b000110), (0x47, 0b000111), (0x48, 0b001000), (0x49, 0b001001), (0x4A, 0b001010),
   (0x4B, 0b001011), (0x4C, 0b001100), (0x4D, 0b001101)]

def sixbitNToZ : SixbitTable :=
  [(0x4E, 0b001110), (0x4F, 0b001111), (0x50, 0b010000), (0x51, 0b010001), (0x52, 0b010010),
   (0x53, 0b010011), (0x54, 0b010100), (0x55, 0b010101), (0x56, 0b010110), (0x57, 0b010111),
   (0x58, 0b011000), (0x59, 0b011001), (0x5A, 0b011010)]

/-- The default `SIXBIT_TABLE`, 40 rows. -/
def defaultSixbitTable : SixbitTable :=
  sixbitPunctuation ++ sixbitDigits ++ sixbitAToM ++ sixbitNToZ

/-- The parameters at the values 00_scope.md R5 decides (log entries 5, 6, 7). -/
def block : Params where
  sixbitTable := defaultSixbitTable
  sgtinElseEmit := .row
  tiaiUriPrefix := ascii "urn:epc:tag:tiai-96:0."

end Sys2Proof.Machine
end

