-- ==== Sys2Proof/Machine/Operands.lean ====
section
/-!
DEFINITION. The primitives every command is built from: character classes, string, numeric and bit-string primitives
(00_scope.md R6 to R11) and the shared normalisation of a GTIN (43_field_packing.md R138).
-/

namespace Sys2Proof.Machine

/-! ### Character classes (00_scope.md R7) -/

/-- `'0'..'9'` only. -/
def isdigit (c : Byte) : Bool := 0x30 ≤ c.toNat && c.toNat ≤ 0x39

/-- `'A'..'F'`. -/
def isUpperHex (c : Byte) : Bool := 0x41 ≤ c.toNat && c.toNat ≤ 0x46

/-- `'a'..'f'`. -/
def isLowerHex (c : Byte) : Bool := 0x61 ≤ c.toNat && c.toNat ≤ 0x66

/-- `'0'..'9'`, `'A'..'F'` and `'a'..'f'` only. -/
def ishex (c : Byte) : Bool := isdigit c || isUpperHex c || isLowerHex c

def alldigits (s : Str) : Bool := s.all isdigit

def allhex (s : Str) : Bool := s.all ishex

/-! ### String primitives (00_scope.md R7, R8), all total -/

/-- `s[a:b)`: the characters of indices `a ≤ i < b`, cut to the string's end. -/
def substr (s : Str) (a b : Nat) : Str := (s.take b).drop a

/-- The first `min n (len s)` characters. -/
def head (s : Str) (n : Nat) : Str := s.take n

/-- The last `min n (len s)` characters. -/
def tail (s : Str) (n : Nat) : Str := s.drop (s.length - n)

/-- `s` with `'0'` characters put in front up to length `n`. -/
def lpad0 (s : Str) (n : Nat) : Str := List.replicate (n - s.length) chZero ++ s

/-- `s` with every leading `'0'` removed. -/
def strip0 (s : Str) : Str := s.dropWhile (· == chZero)

/-- `'a'..'z'` become the character 0x20 lower; every other character is unchanged. -/
def upperChar (c : Byte) : Byte := if 0x61 ≤ c.toNat && c.toNat ≤ 0x7A then c - 0x20 else c

def upper (s : Str) : Str := s.map upperChar

/-! ### Numeric primitives (00_scope.md R9), on unbounded naturals -/

/-- `c - 0x30` for a digit `c`. -/
def digitval (c : Byte) : Nat := c.toNat - 0x30

/-- The value of a hexadecimal digit in either case. -/
def hexdigitval (c : Byte) : Nat :=
  if isdigit c then c.toNat - 0x30 else if isUpperHex c then c.toNat - 0x37 else c.toNat - 0x57

/-- The natural number whose decimal numeral is `s`; 0 for the empty string. -/
def decval (s : Str) : Nat := s.foldl (fun v c => 10 * v + digitval c) 0

/-- The natural number whose base-16 numeral is `s`; 0 for the empty string. -/
def hexval (s : Str) : Nat := s.foldl (fun v c => 16 * v + hexdigitval c) 0

/-! ### Bit strings (00_scope.md R6, R10, R11) -/

/-- The value of a bit string read as a binary numeral, leftmost bit most significant. -/
def bitsval (b : Bits) : Nat := b.foldl (fun v x => 2 * v + x.toNat) 0

/-- `fit_N(v)`: the `N`-bit string of `v mod 2^N`, most significant bit first. -/
def fit : Nat → Nat → Bits
  | 0, _ => []
  | n + 1, v => v.testBit n :: fit n v

/-- `fitbits_N(b)`: left-padded with zeros to `N` bits, or its last `N` bits. -/
def fitbits (n : Nat) (b : Bits) : Bits :=
  if b.length < n then List.replicate (n - b.length) false ++ b else b.drop (b.length - n)

/-- `dec2bin_N`. -/
def dec2bin (n : Nat) (s : Str) : Bits := fit n (decval s)

/-- `hex2bin_N`. -/
def hex2bin (n : Nat) (s : Str) : Bits := fit n (hexval s)

/-- The uppercase hexadecimal digit of a value below 16. -/
def hexChar (v : Nat) : Byte := if v < 10 then BitVec.ofNat 8 (0x30 + v) else BitVec.ofNat 8 (0x37 + v)

/-- `bin2hex`: four bits per character, leading zero nibbles kept. -/
def bin2hex : Bits → Str
  | b3 :: b2 :: b1 :: b0 :: rest => hexChar (bitsval [b3, b2, b1, b0]) :: bin2hex rest
  | _ => []

/-- The `N`-bit register that holds a bit string: its leftmost bit is the most significant (00_scope.md R6). -/
def toReg (n : Nat) (b : Bits) : BitVec n := BitVec.ofNat n (bitsval b)

/-- The bit string an `N`-bit register holds (00_scope.md R6). -/
def regBits {n : Nat} (v : BitVec n) : Bits := fit n v.toNat

/-! ### Shared operand forms -/

/-- A GTIN normalised to 14 digits (43_field_packing.md R138). -/
def gtin14 (s : Str) : Str := lpad0 (head s 14) 14

end Sys2Proof.Machine
end

