-- ==== Sys2Proof/Machine/Ops.lean ====
section
/-!
DEFINITION. The shared operations on the machine: ending a command with its result, taking a fault, reset, sampling
the input ports, and what the host reads on the output ports.
-/

namespace Sys2Proof.Machine

/-! ### Ending a command -/

/-- What a command computes from its operands: the result registers, or the fault it raises (10_state.md R27). -/
abbrev CommandResult := Except CommandFault ResultRegs

/-- `if not ok then raise F` (00_scope.md R12). -/
def require (ok : Bool) (f : CommandFault) : Except CommandFault Unit :=
  if ok then .ok () else .error f

/-- Fault entry: `STATUS` takes the fault's code and every other result register its cleared value, in one update;
nothing is saved and nothing else changes (60_exceptions.md R219). There is no return from it (R220). -/
def takeFault (f : CommandFault) (s : State) : State :=
  { s with regs := { ResultRegs.cleared with status := f.code } }

/-- The one atomic update at a command's end: every result register is written (10_state.md R31). -/
def retire (r : CommandResult) (s : State) : Host.Outcome State Fault Refusal :=
  match r with
  | .ok regs => .next { s with regs := regs }
  | .error f => .next (takeFault f s)

/-- The result of a tag command: `TAG`, `URI`, `STATUS = OK`, the rest cleared (43_field_packing.md R139). -/
def tagResult (tag : Bits) (uri : Str) : ResultRegs :=
  { ResultRegs.cleared with status := statusOk, tag := toReg 96 tag, uri := uri }

/-! ### Reset and the input ports -/

/-- The effect of reset: every piece of the block's state takes its reset value (70_reset_and_hazards.md R240). -/
def resetBlock (s : State) : State := { s with regs := State.reset.regs }

/-- `cmd_ready`: 0 while a command executes, 1 otherwise (10_state.md R36). -/
def cmdReady (executing : Bool) : Bool := !executing

/-- What the block meets at one moment (70_reset_and_hazards.md R241, R245). -/
inductive Event where
  /-- nothing is presented, or `rst` and `cmd_valid` are both 0 -/
  | hold
  /-- `rst` is asserted -/
  | reset
  /-- a command is accepted -/
  | command (c : Command)
  deriving DecidableEq, Repr

/-- What one sample of the input ports means between commands: `rst` first (log entry 3), then acceptance when
`cmd_valid` and `cmd_ready` are both 1 (10_state.md R36). -/
def PortIn.event (d : PortIn) : Event :=
  if d.rst then .reset else if d.cmdValid && cmdReady false then .command d.command else .hold

/-- Take the next port sample (log entries 1, 2). -/
def fetch (s : State) : Event × State :=
  match s.inputs with
  | [] => (.hold, s)
  | d :: rest => (d.event, { s with inputs := rest })

/-- A sample that presents one command. -/
def PortIn.present (c : Command) : PortIn := ⟨false, true, c⟩

/-- Put a command in front of everything the host still presents. -/
def presentFirst (c : Command) (s : State) : State := { s with inputs := PortIn.present c :: s.inputs }

/-! ### What the host reads (10_state.md R25, R33, R36; 20_memory.md R42, R45): functions of the registers -/

/-- `HEX`, the 24-character rendering of `TAG` (10_state.md R25). -/
def ResultRegs.hex (r : ResultRegs) : Str := bin2hex (regBits r.tag)

/-- `TAG` read as 12 bytes, most significant first (20_memory.md R42). -/
def ResultRegs.tagBytes (r : ResultRegs) : List Byte :=
  (List.range 12).map fun i => r.tag.extractLsb' (8 * (11 - i)) 8

/-- `URI.ch[i]`: 0x00 at and after `URI.len` (10_state.md R26). -/
def ResultRegs.uriCh (r : ResultRegs) (i : Nat) : Byte := r.uri.getD i 0

/-- `AUXBITS.b[i]`: 0 at and after `AUXBITS.len` (10_state.md R28). -/
def ResultRegs.auxBit (r : ResultRegs) (i : Nat) : Bool := r.auxBits.getD i false

/-- `AUXTEXT.ch[i]`: 0x00 at and after `AUXTEXT.len` (10_state.md R29, R35). -/
def ResultRegs.auxCh (r : ResultRegs) (i : Nat) : Byte := r.auxText.getD i 0

/-- The source's `EncodedTag`: binary, hex and URI of one encode operation (10_state.md R33). -/
structure EncodedTag where
  binary : Bits
  hex : Str
  uri : Str
  deriving DecidableEq, Repr

/-- The `EncodedTag` the registers hold; meaningful after a tag command with `STATUS = OK` (10_state.md R33). -/
def ResultRegs.encodedTag (r : ResultRegs) : EncodedTag := ⟨regBits r.tag, r.hex, r.uri⟩

/-- The output ports (10_state.md R36). -/
structure PortOut where
  cmdReady : Bool
  rspValid : Bool
  status : BitVec 4
  tag : BitVec 96
  hex : Str
  uriLen : BitVec 7
  uriCh : List Byte
  auxBitsLen : BitVec 8
  auxBitsB : List Bool
  auxTextLen : BitVec 8
  auxTextCh : List Byte
  prow : BitVec 21
  deriving DecidableEq, Repr

/-- What the host reads in a state. `executing` says whether the block is between a command's acceptance and the
writing of its result: the registers then still show the previous result, `cmd_ready` and `rsp_valid` are 0
(10_state.md R36, 20_memory.md R45; log entry 4). -/
def State.portOut (executing : Bool) (s : State) : PortOut where
  cmdReady := Machine.cmdReady executing
  rspValid := !executing && s.regs.status != statusIdle
  status := s.regs.status
  tag := s.regs.tag
  hex := s.regs.hex
  uriLen := BitVec.ofNat 7 s.regs.uri.length
  uriCh := (List.range URI_CAP).map s.regs.uriCh
  auxBitsLen := BitVec.ofNat 8 s.regs.auxBits.length
  auxBitsB := (List.range AUX_CAP).map s.regs.auxBit
  auxTextLen := BitVec.ofNat 8 s.regs.auxText.length
  auxTextCh := (List.range AUX_CAP).map s.regs.auxCh
  prow := s.regs.prow

end Sys2Proof.Machine
end

