-- ==== Sys2Proof/Machine/CheckDigit.lean ====
section
/-!
DEFINITION. The check digit calculator (40_check_digit.md) and `CHKDIG`.
-/

namespace Sys2Proof.Machine

/-- The characters at indices 0, 2, 4, … of a string. -/
def everyOther : Str → Str
  | [] => []
  | [c] => [c]
  | c :: _ :: rest => c :: everyOther rest

/-- `sum_odd`: the digits at even indices (40_check_digit.md R90; the name is the source's). -/
def sumOdd (s : Str) : Nat := ((everyOther s).map digitval).sum

/-- `sum_even`: the digits at odd indices (40_check_digit.md R90). -/
def sumEven (s : Str) : Nat := ((everyOther (s.drop 1)).map digitval).sum

/-- `check = (10 - ((3*sum_odd + sum_even) mod 10)) mod 10` (40_check_digit.md R90). -/
def checkValue (s : Str) : Nat := (10 - (3 * sumOdd s + sumEven s) % 10) % 10

/-- `checkdigit(s)`: one decimal digit character (40_check_digit.md R90). -/
def checkdigit (s : Str) : Byte := BitVec.ofNat 8 (0x30 + checkValue s)

/-- `CHKDIG` (40_check_digit.md R91): `AUXTEXT` takes the check digit. -/
def chkdig (digits : Str) : CommandResult := do
  require (alldigits digits) .invalidInput
  return { ResultRegs.cleared with status := statusOk, auxText := [checkdigit digits] }

/-- The meaning of `CHKDIG`. -/
def execChkdig (digits : Str) (s : State) : Host.Outcome State Fault Refusal :=
  retire (chkdig digits) s

end Sys2Proof.Machine
end

