-- ==== Sys2Proof/Machine/Gid.lean ====
section
/-!
DEFINITION. The GID-96 tag commands (44_gid_encoders.md): `GID.DPCI`, `GID.GTIN`.
-/

namespace Sys2Proof.Machine

/-- The GID-96 layout `header ‖ mgr28 ‖ item24 ‖ ser36` (30_encoding.md R72). -/
def layoutGid (mgr item ser : Str) : Bits :=
  headerGid ++ dec2bin 28 mgr ++ dec2bin 24 item ++ dec2bin 36 ser

/-- A GID URI: its three components literal (43_field_packing.md R136, R137). -/
def renderGid (mgr item ser : Str) : Str := uriGid ++ mgr ++ [chDot] ++ item ++ [chDot] ++ ser

/-- `GID.DPCI` (44_gid_encoders.md R150). -/
def gidDpci (department cls item serial : Str) : CommandResult := do
  require (alldigits department) .invalidInput
  require (alldigits cls) .invalidInput
  require (alldigits item) .invalidInput
  require (alldigits serial) .invalidInput
  let d := lpad0 (head department 3) 3
  let c := lpad0 (head cls 2) 2
  let i := lpad0 (head item 4) 4
  let ser := head serial 10
  let mgr := ascii "049" ++ d ++ c
  let cd := checkdigit (ascii "49" ++ d ++ c ++ i)
  let itm := ascii "00" ++ i ++ [cd]
  return tagResult (layoutGid mgr itm ser) (renderGid mgr itm ser)

/-- `GID.GTIN` (44_gid_encoders.md R151): the packed serial is padded to 10 digits, the URI's is not. -/
def gidGtin (gtin serial : Str) : CommandResult := do
  require (alldigits gtin) .invalidInput
  require (alldigits serial) .invalidInput
  let g := gtin14 gtin
  let ser := head serial 10
  let mgr := substr g 0 8
  let itm := lpad0 (substr g 8 14) 7
  return tagResult (layoutGid mgr itm (lpad0 ser 10)) (renderGid mgr itm ser)

/-- The meaning of `GID.DPCI`. -/
def execGidDpci (department cls item serial : Str) (s : State) : Host.Outcome State Fault Refusal :=
  retire (gidDpci department cls item serial) s

/-- The meaning of `GID.GTIN`. -/
def execGidGtin (gtin serial : Str) (s : State) : Host.Outcome State Fault Refusal :=
  retire (gidGtin gtin serial) s

end Sys2Proof.Machine
end

