-- ==== Sys2Proof/Machine/Partition.lean ====
section
/-!
DEFINITION. The SGTIN partition table (42_partition_table.md) and `PARTQ`.
-/

namespace Sys2Proof.Machine

/-- One row of the partition table (42_partition_table.md R120). -/
structure PartitionEntry where
  code : BitVec 3
  managerBits : Nat
  managerDigits : Nat
  itemBits : Nat
  itemDigits : Nat
  deriving DecidableEq, Repr

/-- The `110` row, the default of the lookup (42_partition_table.md R120, R121). -/
def defaultRow : PartitionEntry := ⟨0b110, 20, 6, 24, 7⟩

/-- The seven rows (42_partition_table.md R120). -/
def partitionTable : List PartitionEntry :=
  [⟨0b000, 40, 12, 4, 1⟩, ⟨0b001, 37, 11, 7, 2⟩, ⟨0b010, 34, 10, 10, 3⟩, ⟨0b011, 30, 9, 14, 4⟩,
   ⟨0b100, 27, 8, 17, 5⟩, ⟨0b101, 24, 7, 20, 6⟩, defaultRow]

/-- `partrow(p)`: the row with code `p`, the `110` row for `111` (42_partition_table.md R121). -/
def partrow (p : BitVec 3) : PartitionEntry := (partitionTable.find? fun r => r.code == p).getD defaultRow

/-- A row in the layout of `PROW` (10_state.md R30). -/
def packRow (r : PartitionEntry) : BitVec 21 :=
  r.code ++ (BitVec.ofNat 6 r.managerBits ++ (BitVec.ofNat 4 r.managerDigits ++
    (BitVec.ofNat 5 r.itemBits ++ BitVec.ofNat 3 r.itemDigits)))

/-- `PARTQ` (42_partition_table.md R122): `PROW` takes the selected row. -/
def partq (p : BitVec 3) : CommandResult :=
  .ok { ResultRegs.cleared with status := statusOk, prow := packRow (partrow p) }

/-- The meaning of `PARTQ`. -/
def execPartq (partition : BitVec 3) (s : State) : Host.Outcome State Fault Refusal :=
  retire (partq partition) s

end Sys2Proof.Machine
end

