-- ==== Sys2Proof/Machine/Sgtin.lean ====
section
/-!
DEFINITION. The SGTIN-96 tag command (45_sgtin_encoder.md): `SGTIN`.
-/

namespace Sys2Proof.Machine

/-- The manager string: `"0"` and the digits `g[2] .. g[md]` (45_sgtin_encoder.md R171). -/
def sgtinManager (r : PartitionEntry) (g : Str) : Str := ascii "0" ++ substr g 2 (r.managerDigits + 1)

/-- The item string: `"0"` and the digits `g[md+1] .. g[12]` (45_sgtin_encoder.md R171). -/
def sgtinItem (r : PartitionEntry) (g : Str) : Str := ascii "0" ++ substr g (r.managerDigits + 1) 13

/-- The three partition bits written into the tag (45_sgtin_encoder.md R172). -/
def partitionBits (emit : ElseEmit) (p : BitVec 3) : BitVec 3 :=
  if p = 0b111 then
    match emit with
    | .row => 0b110
    | .echo => 0b111
  else p

/-- The SGTIN-96 layout `header ‖ 001 ‖ part3 ‖ mgr_mb ‖ item_ib ‖ ser38` (30_encoding.md R73). -/
def layoutSgtin (r : PartitionEntry) (part3 : BitVec 3) (mgr item ser : Str) : Bits :=
  headerSgtin ++ filterSgtin ++ regBits part3 ++ dec2bin r.managerBits mgr ++ dec2bin r.itemBits item
    ++ dec2bin 38 ser

/-- An SGTIN URI: its three components literal (43_field_packing.md R136, R137). -/
def renderSgtin (mgr item ser : Str) : Str := uriSgtin ++ mgr ++ [chDot] ++ item ++ [chDot] ++ ser

/-- `SGTIN` (45_sgtin_encoder.md R170). -/
def sgtin (p : Params) (gtin serial : Str) (partition : BitVec 3) : CommandResult := do
  require (alldigits gtin) .invalidInput
  require (alldigits serial) .invalidInput
  let g := gtin14 gtin
  let ser := head serial 11
  let r := partrow partition
  let mgr := sgtinManager r g
  let itm := sgtinItem r g
  let part3 := partitionBits p.sgtinElseEmit partition
  return tagResult (layoutSgtin r part3 mgr itm ser) (renderSgtin mgr itm ser)

/-- The meaning of `SGTIN`. -/
def execSgtin (gtin serial : Str) (partition : BitVec 3) (s : State) : Host.Outcome State Fault Refusal :=
  retire (sgtin block gtin serial partition) s

end Sys2Proof.Machine
end

