-- ==== Sys2Proof/Machine/Tcin.lean ====
section
/-!
DEFINITION. The proprietary item-number tag command (46_tcin_encoder.md): `TCIN`.
-/

namespace Sys2Proof.Machine

/-- The TCIN-96 layout `header ‖ 000 ‖ item35 ‖ ser50` (30_encoding.md R75). -/
def layoutTcin (item ser : Str) : Bits := headerTcin ++ filterTcin ++ dec2bin 35 item ++ dec2bin 50 ser

/-- A TCIN URI: both components lose their leading zeros (43_field_packing.md R136, R137). -/
def renderTcin (item ser : Str) : Str := uriTcin ++ strip0 item ++ [chDot] ++ strip0 ser

/-- `TCIN` (46_tcin_encoder.md R185). -/
def tcin (item serial : Str) : CommandResult := do
  require (alldigits item) .invalidInput
  require (alldigits serial) .invalidInput
  let itm := lpad0 (head item 10) 10
  let ser := head serial 15
  return tagResult (layoutTcin itm ser) (renderTcin itm ser)

/-- The meaning of `TCIN`. -/
def execTcin (item serial : Str) (s : State) : Host.Outcome State Fault Refusal :=
  retire (tcin item serial) s

end Sys2Proof.Machine
end

