-- ==== Sys2Proof/Machine/Codec.lean ====
section
/-!
DEFINITION. The six-bit character codec (41_sixbit_codec.md), over any code table, and `ENC6`, `DEC6`.
-/

namespace Sys2Proof.Machine

/-- The code of a symbol, none outside the alphabet (41_sixbit_codec.md R100, R101; log entry 13). -/
def SixbitTable.code? (table : SixbitTable) (c : Byte) : Option (BitVec 6) :=
  (table.find? fun row => row.1 == c).map Prod.snd

/-- `sym(g)`: the symbol whose code is `g` (41_sixbit_codec.md R101; log entry 13). -/
def SixbitTable.sym? (table : SixbitTable) (g : BitVec 6) : Option Byte :=
  (table.find? fun row => row.2 == g).map Prod.fst

/-- A character is supported when, after `upper`, it is a symbol of the alphabet (41_sixbit_codec.md R100). -/
def supported (table : SixbitTable) (c : Byte) : Bool := (SixbitTable.code? table (upperChar c)).isSome

/-- The six code bits of a symbol. -/
def codeBits (table : SixbitTable) (c : Byte) : Bits := regBits ((SixbitTable.code? table c).getD 0)

/-- `sixbit_encode(text, min_bits)` (41_sixbit_codec.md R102). -/
def sixbitEncode (table : SixbitTable) (text : Str) (minBits : Nat) : Except CommandFault Bits := do
  require (text.all (supported table)) .unsupportedCharacter
  let body := (upper text).flatMap (codeBits table)
  return List.replicate (minBits - body.length) false ++ body

/-- The 6-bit groups of a bit string from the left (41_sixbit_codec.md R103). -/
def groups6 : Bits → List (BitVec 6)
  | b5 :: b4 :: b3 :: b2 :: b1 :: b0 :: rest => toReg 6 [b5, b4, b3, b2, b1, b0] :: groups6 rest
  | _ => []

/-- What one group decodes to: nothing for the all-zero group, its symbol, or a fault (41_sixbit_codec.md R103). -/
def decodeGroup (table : SixbitTable) (g : BitVec 6) : Except CommandFault Str :=
  if g = 0 then .ok []
  else match SixbitTable.sym? table g with
    | some c => .ok [c]
    | none => .error .invalidBitGroup

/-- The groups decoded in order, the first bad one deciding the fault. -/
def decodeGroups (table : SixbitTable) : List (BitVec 6) → Except CommandFault Str
  | [] => .ok []
  | g :: gs => do
      let first ← decodeGroup table g
      let others ← decodeGroups table gs
      return first ++ others

/-- `sixbit_decode(bits, min_chars)` (41_sixbit_codec.md R103). -/
def sixbitDecode (table : SixbitTable) (bits : Bits) (minChars : Nat) : Except CommandFault Str := do
  require (bits.length % 6 == 0) .invalidBitGroup
  let out ← decodeGroups table (groups6 bits)
  return lpad0 out minChars

/-- `ENC6` (41_sixbit_codec.md R105): `AUXBITS` takes the code bits. -/
def enc6 (p : Params) (text : Str) (minBits : BitVec 8) : CommandResult := do
  let bits ← sixbitEncode p.sixbitTable text minBits.toNat
  return { ResultRegs.cleared with status := statusOk, auxBits := bits }

/-- `DEC6` (41_sixbit_codec.md R106): `AUXTEXT` takes the decoded text. -/
def dec6 (p : Params) (bits : Bits) (minChars : BitVec 8) : CommandResult := do
  let text ← sixbitDecode p.sixbitTable bits minChars.toNat
  return { ResultRegs.cleared with status := statusOk, auxText := text }

/-- The meaning of `ENC6`. -/
def execEnc6 (text : Str) (minBits : BitVec 8) (s : State) : Host.Outcome State Fault Refusal :=
  retire (enc6 block text minBits) s

/-- The meaning of `DEC6`. -/
def execDec6 (bits : Bits) (minChars : BitVec 8) (s : State) : Host.Outcome State Fault Refusal :=
  retire (dec6 block bits minChars) s

end Sys2Proof.Machine
end

