-- ==== Sys2Proof/Machine/Tiai.lean ====
section
/-!
DEFINITION. The proprietary asset-identifier tag commands (47_tiai_encoders.md): `TIAI.D`, `TIAI.C`, `TIAI.H`.
-/

namespace Sys2Proof.Machine

/-- The TIAI-96 layout `header ‖ 000 ‖ ref13 ‖ id72` (30_encoding.md R76). -/
def layoutTiai (ref : Str) (id72 : Bits) : Bits := headerTiai ++ filterTiai ++ dec2bin 13 ref ++ id72

/-- The step the three commands share: the reference keeps its last 3 digits, and its URI component loses its leading
zeros (47_tiai_encoders.md R195). -/
def packTiai (p : Params) (reference : Str) (id72 : Bits) (idc : Str) : ResultRegs :=
  let ref := tail reference 3
  tagResult (layoutTiai ref id72) (p.tiaiUriPrefix ++ strip0 ref ++ [chDot] ++ idc)

/-- `TIAI.D`, asset ID in decimal (47_tiai_encoders.md R196, R199). -/
def tiaiD (p : Params) (reference assetId : Str) : CommandResult := do
  require (alldigits reference) .invalidInput
  require (alldigits assetId) .invalidInput
  let a := head assetId 21
  return packTiai p reference (dec2bin 72 a) (strip0 a)

/-- `TIAI.C`, asset ID in characters (47_tiai_encoders.md R197, R199): the whole operand is validated before it is
cut to 12 characters, and the URI shows it as supplied. -/
def tiaiC (p : Params) (reference assetId : Str) : CommandResult := do
  require (alldigits reference) .invalidInput
  require (assetId.all (supported p.sixbitTable)) .unsupportedCharacter
  let a := head assetId 12
  let bits ← sixbitEncode p.sixbitTable a 72
  return packTiai p reference (fitbits 72 bits) a

/-- `TIAI.H`, asset ID in hexadecimal (47_tiai_encoders.md R198, R199). -/
def tiaiH (p : Params) (reference assetId : Str) : CommandResult := do
  require (alldigits reference) .invalidInput
  require (allhex assetId) .invalidInput
  let a := head assetId 18
  return packTiai p reference (hex2bin 72 a) (strip0 a)

/-- The meaning of `TIAI.D`. -/
def execTiaiD (reference assetId : Str) (s : State) : Host.Outcome State Fault Refusal :=
  retire (tiaiD block reference assetId) s

/-- The meaning of `TIAI.C`. -/
def execTiaiC (reference assetId : Str) (s : State) : Host.Outcome State Fault Refusal :=
  retire (tiaiC block reference assetId) s

/-- The meaning of `TIAI.H`. -/
def execTiaiH (reference assetId : Str) (s : State) : Host.Outcome State Fault Refusal :=
  retire (tiaiH block reference assetId) s

end Sys2Proof.Machine
end

