-- ==== Sys2Proof/Machine/Dispatch.lean ====
section
/-!
DEFINITION. From a command to its meaning, one arm per constructor.
-/

namespace Sys2Proof.Machine

def exec (i : Instr) (s : State) : Host.Outcome State Fault Refusal :=
  match i with
  | .gidDpci department cls item serial => Sys2Proof.Machine.execGidDpci department cls item serial s
  | .gidGtin gtin serial => Sys2Proof.Machine.execGidGtin gtin serial s
  | .sgtin gtin serial partition => Sys2Proof.Machine.execSgtin gtin serial partition s
  | .tcin item serial => Sys2Proof.Machine.execTcin item serial s
  | .tiaiD reference assetId => Sys2Proof.Machine.execTiaiD reference assetId s
  | .tiaiC reference assetId => Sys2Proof.Machine.execTiaiC reference assetId s
  | .tiaiH reference assetId => Sys2Proof.Machine.execTiaiH reference assetId s
  | .chkdig digits => Sys2Proof.Machine.execChkdig digits s
  | .enc6 text minBits => Sys2Proof.Machine.execEnc6 text minBits s
  | .dec6 bits minChars => Sys2Proof.Machine.execDec6 bits minChars s
  | .partq partition => Sys2Proof.Machine.execPartq partition s

end Sys2Proof.Machine
end

