-- ==== Sys2Proof/Machine/Step.lean ====
section
/-!
DEFINITION. One step of the machine: take the next port sample and do what it asks.
-/

namespace Sys2Proof.Machine

/-- One step (10_state.md R20, R36): reset, execute the accepted command, or hold. A command the decoder rejects is
still executed: it raises `IllegalCommand` before any operand is examined (30_encoding.md R60, 60_exceptions.md R218). -/
def step (s : State) : Host.Outcome State Fault Refusal :=
  match fetch s with
  | (.hold, t) => .next t
  | (.reset, t) => .next (resetBlock t)
  | (.command c, t) =>
    match decode c with
    | .ok i => exec i t
    | .error _ => .next (takeFault .illegalCommand t)

/-- `s` with the command whose word is the `nbits` low bits of `w`, every operand slot zero, presented first. -/
def State.withFetchWord (s : State) (nbits w : Nat) : State := presentFirst (tableCommand nbits w) s

end Sys2Proof.Machine
end

