-- ==== Sys2Proof/Machine/Text.lean ====
section
/-!
DEFINITION. The textual form of a command (30_encoding.md R63): the mnemonic of R58, then its used operands in slot
order.
-/

namespace Sys2Proof.Machine

/-- A string operand between double quotes. -/
def quoted (s : Str) : Str := [0x22] ++ s ++ [0x22]

/-- The bit-string operand: `b"..."`, leftmost bit first. -/
def quotedBits (b : Bits) : Str := ascii "b" ++ quoted (b.map fun x => if x then 0x31 else 0x30)

/-- The digits of a number below 1000 with its leading zeros removed. -/
def decimalText (v : Nat) : Str :=
  let digit := fun d => BitVec.ofNat 8 (0x30 + d)
  if v < 10 then [digit v]
  else if v < 100 then [digit (v / 10), digit (v % 10)]
  else [digit (v / 100), digit (v / 10 % 10), digit (v % 10)]

/-- The partition code: `p=` and three binary digits, `CMD[6]` first. -/
def partitionText (p : BitVec 3) : Str := ascii "p=" ++ (regBits p).map fun x => if x then 0x31 else 0x30

/-- The count: `n=` and a decimal number, left out when 0 (log entry 10). -/
def countText (n : BitVec 8) : List Str := if n = 0 then [] else [ascii "n=" ++ decimalText n.toNat]

/-- A command's mnemonic, a space, and its operands separated by commas. -/
def commandText (mnemonic : String) (operands : List Str) : Str :=
  ascii mnemonic ++ ascii " " ++ (operands.intersperse (ascii ", ")).flatten

/-- The textual form of a command (30_encoding.md R63). -/
def text : Instr → Str
  | .gidDpci department cls item serial =>
      commandText "GID.DPCI" [quoted department, quoted cls, quoted item, quoted serial]
  | .gidGtin gtin serial => commandText "GID.GTIN" [quoted gtin, quoted serial]
  | .sgtin gtin serial partition => commandText "SGTIN" [quoted gtin, quoted serial, partitionText partition]
  | .tcin item serial => commandText "TCIN" [quoted item, quoted serial]
  | .tiaiD reference assetId => commandText "TIAI.D" [quoted reference, quoted assetId]
  | .tiaiC reference assetId => commandText "TIAI.C" [quoted reference, quoted assetId]
  | .tiaiH reference assetId => commandText "TIAI.H" [quoted reference, quoted assetId]
  | .chkdig digits => commandText "CHKDIG" [quoted digits]
  | .enc6 t minBits => commandText "ENC6" (quoted t :: countText minBits)
  | .dec6 bits minChars => commandText "DEC6" (quotedBits bits :: countText minChars)
  | .partq partition => commandText "PARTQ" [partitionText partition]

end Sys2Proof.Machine
end

