-- ==== Sys2Proof/Safety.lean ====
section
/-!
DEFINITION. What a safe run is: the result registers always show the reset state, one command's complete result, or
one fault with everything else cleared.
-/

namespace Sys2Proof.Machine

/-- A run of `n` steps (70_reset_and_hazards.md R245), stopping at the first step that answers no next state. -/
def steps : Nat → State → Host.Outcome State Fault Refusal
  | 0, s => .next s
  | n + 1, s =>
    match step s with
    | .next t => steps n t
    | .fault f => .fault f
    | .refused r => .refused r

/-- The four tag schemes (00_scope.md R1). -/
inductive Scheme where
  | gid
  | sgtin
  | tcin
  | tiai
  deriving DecidableEq, Repr

/-- The header of a scheme as a byte (30_encoding.md R71, "as hex"). -/
def Scheme.header : Scheme → BitVec 8
  | .gid => 0x35
  | .sgtin => 0x30
  | .tcin => 0x08
  | .tiai => 0x0A

/-- The fixed text that opens a scheme's URI, for the parameters the block runs at (43_field_packing.md R136). -/
def Scheme.uriText : Scheme → Str
  | .gid => uriGid
  | .sgtin => uriSgtin
  | .tcin => uriTcin
  | .tiai => block.tiaiUriPrefix

/-- The scheme a test bench reads off `TAG[95:88]` (30_encoding.md R79). -/
def schemeOf (tag : BitVec 96) : Option Scheme :=
  [Scheme.gid, .sgtin, .tcin, .tiai].find? fun k => k.header == tag.extractLsb' 88 8

/-- The registers show the reset state or a fault: `STATUS` is `IDLE` or a fault code, the rest is cleared
(10_state.md R35, 60_exceptions.md R219). -/
def ResultRegs.NoResult (r : ResultRegs) : Prop :=
  (r.status = statusIdle ∨ ∃ f : CommandFault, r.status = f.code) ∧
  r = { ResultRegs.cleared with status := r.status }

/-- The registers show a tag command's result: the header names a scheme, the filter bits are that scheme's, an SGTIN
tag's partition bits name a row, the URI opens with the scheme's text and fits, the rest is cleared
(43_field_packing.md R139, R141; 30_encoding.md R71 to R77, R79). -/
def ResultRegs.ShowsTag (r : ResultRegs) : Prop :=
  (∃ k : Scheme, r.tag.extractLsb' 88 8 = k.header ∧ k.uriText <+: r.uri ∧
    (k = .sgtin → r.tag.extractLsb' 85 3 = 0b001 ∧ r.tag.extractLsb' 82 3 ≠ 0b111) ∧
    (k = .tcin ∨ k = .tiai → r.tag.extractLsb' 85 3 = 0b000)) ∧
  r.uri.length ≤ 49 ∧
  r = { ResultRegs.cleared with status := statusOk, tag := r.tag, uri := r.uri }

/-- The registers show `ENC6`'s result (41_sixbit_codec.md R105). -/
def ResultRegs.ShowsBits (r : ResultRegs) : Prop :=
  r.auxBits.length ≤ AUX_CAP ∧ r = { ResultRegs.cleared with status := statusOk, auxBits := r.auxBits }

/-- The registers show `CHKDIG`'s or `DEC6`'s result (40_check_digit.md R91, 41_sixbit_codec.md R106). -/
def ResultRegs.ShowsText (r : ResultRegs) : Prop :=
  r.auxText.length ≤ AUX_CAP ∧ r = { ResultRegs.cleared with status := statusOk, auxText := r.auxText }

/-- The registers show `PARTQ`'s result, a row of the partition table (42_partition_table.md R122). -/
def ResultRegs.ShowsRow (r : ResultRegs) : Prop :=
  (∃ e ∈ partitionTable, r.prow = packRow e) ∧
  r = { ResultRegs.cleared with status := statusOk, prow := r.prow }

/-- The invariant of the machine. -/
def State.Inv (s : State) : Prop :=
  s.regs.NoResult ∨ s.regs.ShowsTag ∨ s.regs.ShowsBits ∨ s.regs.ShowsText ∨ s.regs.ShowsRow

end Sys2Proof.Machine
end

