-- ==== Sys2Proof/Certificates/Slice0/Obligations.lean ====
section
/-!
DEFINITION. The statements about the block, each read from the numbered rules of spec/ its docstring names, with the
words they are stated in.
-/

namespace Sys2Proof.Statements

open Sys2Proof Sys2Proof.Machine

/-! ### The next state a statement names: every result register written out, the inputs kept -/

/-- `STATUS = OK`, a tag of value `v` and a URI; everything else cleared (43_field_packing.md R139). -/
def tagShown (v : Nat) (uri : Str) (s : State) : State := ⟨⟨0x1, BitVec.ofNat 96 v, uri, [], [], 0⟩, s.inputs⟩

/-- `STATUS = OK` and `AUXBITS`; everything else cleared. -/
def bitsShown (b : Bits) (s : State) : State := ⟨⟨0x1, 0, [], b, [], 0⟩, s.inputs⟩

/-- `STATUS = OK` and `AUXTEXT`; everything else cleared. -/
def textShown (text : Str) (s : State) : State := ⟨⟨0x1, 0, [], [], text, 0⟩, s.inputs⟩

/-- `STATUS = OK` and `PROW`; everything else cleared. -/
def rowShown (row : BitVec 21) (s : State) : State := ⟨⟨0x1, 0, [], [], [], row⟩, s.inputs⟩

/-- `STATUS` is the code; everything else cleared (60_exceptions.md R219). -/
def codeShown (code : BitVec 4) (s : State) : State := ⟨⟨code, 0, [], [], [], 0⟩, s.inputs⟩

/-! ### Words about commands -/

/-- The seven tag commands (30_encoding.md R58). -/
def isTagCommand : Instr → Bool
  | .gidDpci _ _ _ _ => true
  | .gidGtin _ _ => true
  | .sgtin _ _ _ => true
  | .tcin _ _ => true
  | .tiaiD _ _ => true
  | .tiaiC _ _ => true
  | .tiaiH _ _ => true
  | .chkdig _ => false
  | .enc6 _ _ => false
  | .dec6 _ _ => false
  | .partq _ => false

/-- The scheme of a tag command (30_encoding.md R71), none for the helper commands. -/
def schemeMade : Instr → Option Scheme
  | .gidDpci _ _ _ _ => some .gid
  | .gidGtin _ _ => some .gid
  | .sgtin _ _ _ => some .sgtin
  | .tcin _ _ => some .tcin
  | .tiaiD _ _ => some .tiai
  | .tiaiC _ _ => some .tiai
  | .tiaiH _ _ => some .tiai
  | .chkdig _ => none
  | .enc6 _ _ => none
  | .dec6 _ _ => none
  | .partq _ => none

/-- The operands of decimal class (43_field_packing.md R132, 40_check_digit.md R91). -/
def decimalOperands : Instr → List Str
  | .gidDpci department cls item serial => [department, cls, item, serial]
  | .gidGtin gtin serial => [gtin, serial]
  | .sgtin gtin serial _ => [gtin, serial]
  | .tcin item serial => [item, serial]
  | .tiaiD reference assetId => [reference, assetId]
  | .tiaiC reference _ => [reference]
  | .tiaiH reference _ => [reference]
  | .chkdig digits => [digits]
  | .enc6 _ _ => []
  | .dec6 _ _ => []
  | .partq _ => []

/-- The text a command hands to the six-bit encoder (60_exceptions.md R216). -/
def sixbitText : Instr → Str
  | .tiaiC _ assetId => assetId
  | .enc6 text _ => text
  | .gidDpci _ _ _ _ => []
  | .gidGtin _ _ => []
  | .sgtin _ _ _ => []
  | .tcin _ _ => []
  | .tiaiD _ _ => []
  | .tiaiH _ _ => []
  | .chkdig _ => []
  | .dec6 _ _ => []
  | .partq _ => []

/-- The operand of hexadecimal class: the asset ID of `TIAI.H` (43_field_packing.md R132). -/
def hexOperand : Instr → Str
  | .tiaiH _ assetId => assetId
  | .gidDpci _ _ _ _ => []
  | .gidGtin _ _ => []
  | .sgtin _ _ _ => []
  | .tcin _ _ => []
  | .tiaiD _ _ => []
  | .tiaiC _ _ => []
  | .chkdig _ => []
  | .enc6 _ _ => []
  | .dec6 _ _ => []
  | .partq _ => []

/-! ### Words about presented commands -/

/-- `OP`, read off the command word's value (30_encoding.md R56). -/
def opOf (c : Command) : Nat := c.cmd.toNat % 16

/-- `P` (30_encoding.md R56). -/
def pOf (c : Command) : Nat := c.cmd.toNat / 16 % 8

/-- `RSV` (30_encoding.md R56). -/
def rsvOf (c : Command) : Nat := c.cmd.toNat / 128 % 2

/-- `N` (30_encoding.md R56). -/
def nOf (c : Command) : Nat := c.cmd.toNat / 256

/-- The four cases of 30_encoding.md R60. -/
def Illegal (c : Command) : Prop :=
  (opOf c = 0 ∨ opOf c = 0xC ∨ opOf c = 0xD ∨ opOf c = 0xE ∨ opOf c = 0xF) ∨
  rsvOf c = 1 ∨
  (1 ≤ opOf c ∧ opOf c ≤ 9 ∧ 32 < c.s0.len.toNat) ∨
  (1 ≤ opOf c ∧ opOf c ≤ 7 ∧ 32 < c.s1.len.toNat) ∨
  (opOf c = 1 ∧ (32 < c.s2.len.toNat ∨ 32 < c.s3.len.toNat)) ∨
  (opOf c = 0xA ∧ 192 < c.b0.len.toNat)

/-- Two string slots hold the same string: same length, same characters below it (30_encoding.md R57). -/
def SameString (a b : StringSlot) : Prop :=
  a.len = b.len ∧ ∀ i : Fin SMAX, i.val < a.len.toNat → a.ch.get i = b.ch.get i

/-- Two bit-string slots hold the same bits (30_encoding.md R57). -/
def SameBits (a b : BitSlot) : Prop :=
  a.len = b.len ∧ ∀ i : Fin BMAX, i.val < a.len.toNat → a.b.get i = b.b.get i

/-- Two presented commands agree on `OP`, `RSV` and everything the selected command uses; the rest, `P`, `N` and
unused slots with their lengths included, may differ (30_encoding.md R58, R61). -/
def SameUsed (a b : Command) : Prop :=
  opOf a = opOf b ∧ rsvOf a = rsvOf b ∧
  (opOf a = 3 ∨ opOf a = 0xB → pOf a = pOf b) ∧
  (opOf a = 9 ∨ opOf a = 0xA → nOf a = nOf b) ∧
  (1 ≤ opOf a ∧ opOf a ≤ 9 → SameString a.s0 b.s0) ∧
  (1 ≤ opOf a ∧ opOf a ≤ 7 → SameString a.s1 b.s1) ∧
  (opOf a = 1 → SameString a.s2 b.s2 ∧ SameString a.s3 b.s3) ∧
  (opOf a = 0xA → SameBits a.b0 b.b0)

/-- Every data port shows what the result registers hold, character by character and bit by bit (10_state.md R36); the
handshake ports are not spoken of. -/
structure PortsShow (o : PortOut) (r : ResultRegs) : Prop where
  status : o.status = r.status
  tag : o.tag = r.tag
  hex : o.hex = r.hex
  uriLen : o.uriLen = BitVec.ofNat 7 r.uri.length
  uriCh : o.uriCh.length = 64 ∧ ∀ i, i < 64 → o.uriCh[i]? = some (r.uri.getD i 0x00)
  auxBitsLen : o.auxBitsLen = BitVec.ofNat 8 r.auxBits.length
  auxBitsB : o.auxBitsB.length = 255 ∧ ∀ i, i < 255 → o.auxBitsB[i]? = some (r.auxBits.getD i false)
  auxTextLen : o.auxTextLen = BitVec.ofNat 8 r.auxText.length
  auxTextCh : o.auxTextCh.length = 255 ∧ ∀ i, i < 255 → o.auxTextCh[i]? = some (r.auxText.getD i 0x00)
  prow : o.prow = r.prow

/-- The next sample the state presents is a command, with reset not asserted. -/
def Presents (s : State) (c : Command) (rest : List PortIn) : Prop := s.inputs = ⟨false, true, c⟩ :: rest

end Sys2Proof.Statements

open Sys2Proof Sys2Proof.Machine Sys2Proof.Statements

/-! ### Encoding -/

/-- Decoding what the encoder presents gives the command back, for every command that fits its slots, with every
operand at every value (30_encoding.md R55 to R58). -/
def Obligations.DecodeOfEncode : Prop :=
  ∀ i : Instr, i.wellFormed = true → decode (encode i) = .ok i

/-- A decoded command fits its slots (30_encoding.md R57, R60). -/
def Obligations.DecodedCommandFits : Prop :=
  ∀ (c : Command) (i : Instr), decode c = .ok i → i.wellFormed = true

/-- Each operand a command uses is read from the slot or field the table of 30_encoding.md R58 gives it, at the bit
positions of R56. -/
def Obligations.DecodeReadsTheTablesOperands : Prop :=
  ∀ (c : Command) (i : Instr), decode c = .ok i → rsvOf c = 0 ∧
    let s0 := c.s0.ch.toList.take c.s0.len.toNat
    let s1 := c.s1.ch.toList.take c.s1.len.toNat
    let s2 := c.s2.ch.toList.take c.s2.len.toNat
    let s3 := c.s3.ch.toList.take c.s3.len.toNat
    match i with
    | .gidDpci department cls item serial =>
        opOf c = 0x1 ∧ department = s0 ∧ cls = s1 ∧ item = s2 ∧ serial = s3
    | .gidGtin gtin serial => opOf c = 0x2 ∧ gtin = s0 ∧ serial = s1
    | .sgtin gtin serial partition => opOf c = 0x3 ∧ gtin = s0 ∧ serial = s1 ∧ partition.toNat = pOf c
    | .tcin item serial => opOf c = 0x4 ∧ item = s0 ∧ serial = s1
    | .tiaiD reference assetId => opOf c = 0x5 ∧ reference = s0 ∧ assetId = s1
    | .tiaiC reference assetId => opOf c = 0x6 ∧ reference = s0 ∧ assetId = s1
    | .tiaiH reference assetId => opOf c = 0x7 ∧ reference = s0 ∧ assetId = s1
    | .chkdig digits => opOf c = 0x8 ∧ digits = s0
    | .enc6 text minBits => opOf c = 0x9 ∧ text = s0 ∧ minBits.toNat = nOf c
    | .dec6 bits minChars =>
        opOf c = 0xA ∧ bits = c.b0.b.toList.take c.b0.len.toNat ∧ minChars.toNat = nOf c
    | .partq partition => opOf c = 0xB ∧ partition.toNat = pOf c

/-- `OP` and `RSV` alone select: with empty slots every command word either matches one row under the mask and decodes
to that row's command, or matches none and is rejected; whatever the slots hold, a command that decodes matches its own
row; and two commands share a row only if they are the same operation (30_encoding.md R59). -/
def Obligations.EveryWordMatchesOneRowOrNone : Prop :=
  (∀ w : BitVec 16,
    (∃ i, decode (Command.bare w) = .ok i ∧ w &&& 0x008F = i.opcodeMatch) ∨
    ((∃ e, decode (Command.bare w) = .error e) ∧ ∀ i : Instr, w &&& 0x008F ≠ i.opcodeMatch)) ∧
  (∀ (c : Command) (i : Instr), decode c = .ok i → c.cmd &&& 0x008F = i.opcodeMatch) ∧
  ∀ i j : Instr, i.opcodeMatch = j.opcodeMatch → i.ctorIdx = j.ctorIdx

/-- Unused fields and slots are ignored whole: two presented commands that agree on what is used decode alike and run
alike (30_encoding.md R61). -/
def Obligations.UnusedOperandsAreIgnored : Prop :=
  ∀ a b : Command, SameUsed a b →
    decode a = decode b ∧ ∀ s : State, step (presentFirst a s) = step (presentFirst b s)

/-- A command is illegal exactly in the four cases of 30_encoding.md R60; it is then still executed: `STATUS` becomes
`IllegalCommand` (0x5) and everything else is cleared. Otherwise it runs and does not end with that code. -/
def Obligations.IllegalCommandExactlyWhen : Prop :=
  ∀ (s : State) (c : Command) (rest : List PortIn), Presents s c rest →
    (Illegal c → step s = .next (codeShown 0x5 ⟨s.regs, rest⟩)) ∧
    (¬ Illegal c → ∃ i t, decode c = .ok i ∧ step s = .next t ∧ exec i ⟨s.regs, rest⟩ = .next t ∧
      t.regs.status ≠ 0x5)

/-- The two encodings 30_encoding.md R64 writes out decode to the commands they stand for. -/
def Obligations.WrittenOutWordsDecode : Prop :=
  decode { Command.bare 0x0053 with
      s0 := ⟨14, fillVector 32 0 [0x30, 0x30, 0x30, 0x34, 0x33, 0x39, 0x33, 0x35, 0x34, 0x36, 0x30, 0x36, 0x32, 0x34]⟩,
      s1 := ⟨5, fillVector 32 0 [0x31, 0x32, 0x33, 0x34, 0x35]⟩ }
    = .ok (.sgtin (ascii "00043935460624") (ascii "12345") 0b101) ∧
  decode { Command.bare 0x4809 with s0 := ⟨2, fillVector 32 0 [0x41, 0x42]⟩ }
    = .ok (.enc6 (ascii "AB") 72)

/-! ### The step -/

/-- A step whose next sample presents a command the decoder reads runs that command, with the sample taken
(10_state.md R20, R36; the list of samples is the model's own, log entry 1). -/
def Obligations.StepRunsTheDecodedCommand : Prop :=
  ∀ (s : State) (c : Command) (rest : List PortIn) (i : Instr), Presents s c rest → decode c = .ok i →
    step s = exec i ⟨s.regs, rest⟩

/-- With `rst` asserted every register takes its reset value, whatever else the sample holds; a second reset changes
nothing more (70_reset_and_hazards.md R240; 10_state.md R35; that `rst` wins over `cmd_valid` is log entry 3). -/
def Obligations.ResetClearsEverything : Prop :=
  ∀ (s : State) (valid : Bool) (c : Command) (rest : List PortIn), s.inputs = ⟨true, valid, c⟩ :: rest →
    step s = .next (codeShown 0x0 ⟨s.regs, rest⟩) ∧
    ((codeShown 0x0 ⟨s.regs, rest⟩).portOut false).rspValid = false ∧
    ((codeShown 0x0 ⟨s.regs, rest⟩).portOut false).cmdReady = true ∧
    ∀ (valid' : Bool) (c' : Command) (later : List PortIn), rest = ⟨true, valid', c'⟩ :: later →
      step (codeShown 0x0 ⟨s.regs, rest⟩) = .next (codeShown 0x0 ⟨s.regs, later⟩)

/-- The state after reset (10_state.md R35): `STATUS` is `IDLE`, `TAG` and `PROW` are 0, the strings are empty, `HEX`
is 24 characters `'0'`, `cmd_ready` is 1 and `rsp_valid` is 0. That no sample is listed is the model's own (log entry 1). -/
def Obligations.ResetValues : Prop :=
  State.reset.regs = ⟨0x0, 0, [], [], [], 0⟩ ∧
  State.reset.regs.hex = List.replicate 24 0x30 ∧
  (State.reset.portOut false).cmdReady = true ∧ (State.reset.portOut false).rspValid = false ∧
  (∀ i, State.reset.regs.uriCh i = 0x00) ∧ (∀ i, State.reset.regs.auxBit i = false) ∧
  (∀ i, State.reset.regs.auxCh i = 0x00)

/-- Between commands the block holds its result registers and does nothing (60_exceptions.md R226; log entry 2). -/
def Obligations.BlockHoldsBetweenCommands : Prop :=
  (∀ r : ResultRegs, step ⟨r, []⟩ = .next ⟨r, []⟩) ∧
  ∀ (r : ResultRegs) (c : Command) (rest : List PortIn),
    step ⟨r, ⟨false, false, c⟩ :: rest⟩ = .next ⟨r, rest⟩

/-- Every accepted command completes: no step stops, each takes one sample (70_reset_and_hazards.md R244). -/
def Obligations.EveryStepCompletes : Prop :=
  (∀ (i : Instr) (s : State), ∃ t, exec i s = .next t ∧ t.inputs = s.inputs) ∧
  ∀ s : State, ∃ t, step s = .next t ∧ t.inputs = s.inputs.tail

/-- The command word that stands first is the one that runs (the model's own way to load a command, log entry 1). -/
def Obligations.PlacedWordRuns : Prop :=
  ∀ (s : State) (w : Nat) (i : Instr), decodeTableWord 16 w = some i → step (s.withFetchWord 16 w) = exec i s

/-- A command that is accepted and then reset leaves the reset state, as if it had been abandoned
(70_reset_and_hazards.md R241). -/
def Obligations.ResetAfterCommandIsReset : Prop :=
  ∀ (r : ResultRegs) (c c' : Command) (valid : Bool) (rest : List PortIn),
    steps 2 ⟨r, ⟨false, true, c⟩ :: ⟨true, valid, c'⟩ :: rest⟩ = .next ⟨⟨0x0, 0, [], [], [], 0⟩, rest⟩

/-! ### The whole machine -/

/-- The invariant holds after reset. -/
def Obligations.ResetMeetsInv : Prop := State.reset.Inv

/-- Every step keeps the invariant: the registers show the reset state, a fault with everything else cleared, or
exactly one command's complete result of legal form. -/
def Obligations.StepKeepsInv : Prop :=
  ∀ s t : State, s.Inv → step s = .next t → t.Inv

/-- What the registers show at the end of a run is fixed by the run's last reset or command alone, chosen before the
registers it starts from, the samples before it and the samples not yet taken: the reset values if it was a reset, else
that one command's result (10_state.md R27; 20_memory.md R47; 70_reset_and_hazards.md R245). -/
def Obligations.RunShowsItsLastEventOnly : Prop :=
  ∀ last : PortIn, (last.rst = true ∨ last.cmdValid = true) →
    ∃ shown : ResultRegs,
      (last.rst = true → shown = State.reset.regs) ∧
      ∀ (r : ResultRegs) (earlier later : List PortIn),
        steps (earlier.length + 1) ⟨r, earlier ++ last :: later⟩ = .next ⟨shown, later⟩ ∧
        step ⟨r, last :: later⟩ = .next ⟨shown, later⟩

/-- Every executed command writes every result register: what it does not produce is cleared, and no value of an
earlier command survives (10_state.md R31). -/
def Obligations.EveryRegisterIsWritten : Prop :=
  ∀ (i : Instr) (s t : State), exec i s = .next t →
    t.inputs = s.inputs ∧
    (isTagCommand i = false → t.regs.tag = 0 ∧ t.regs.uri = []) ∧
    ((∀ text n, i ≠ .enc6 text n) → t.regs.auxBits = []) ∧
    ((∀ digits, i ≠ .chkdig digits) → (∀ bits n, i ≠ .dec6 bits n) → t.regs.auxText = []) ∧
    ((∀ p, i ≠ .partq p) → t.regs.prow = 0) ∧
    (t.regs.status ≠ 0x1 → t = codeShown t.regs.status s) ∧
    ∀ s' : State, exec i s' = .next ⟨t.regs, s'.inputs⟩

/-- While a command executes the host sees the previous registers with `cmd_ready` and `rsp_valid` 0; when it has ended
both are 1, and every data port, `HEX` and the string ports too, shows the new registers (10_state.md R36;
20_memory.md R45; log entry 4). -/
def Obligations.HandshakeAroundACommand : Prop :=
  ∀ (s : State) (c : Command) (rest : List PortIn), Presents s c rest → ∃ t, step s = .next t ∧
    s.portOut true = { s.portOut false with cmdReady := false, rspValid := false } ∧
    PortsShow (s.portOut true) s.regs ∧
    (t.portOut false).cmdReady = true ∧ (t.portOut false).rspValid = true ∧
    PortsShow (t.portOut false) t.regs

/-- `HEX` renders `TAG`: 24 characters, character `i` the uppercase hexadecimal digit of `TAG[95-4i : 92-4i]`, and
reading it back gives `TAG` (10_state.md R25). -/
def Obligations.HexRendersTag : Prop :=
  ∀ r : ResultRegs, r.hex.length = 24 ∧
    (∀ i, i < 24 → ∃ v : Nat, v = (r.tag.extractLsb' (92 - 4 * i) 4).toNat ∧
      r.hex[i]? = some (if v < 10 then BitVec.ofNat 8 (0x30 + v) else BitVec.ofNat 8 (0x41 + (v - 10)))) ∧
    hexval r.hex = r.tag.toNat

/-- The URI, `AUXBITS` and `AUXTEXT` that the host reads back are whole: the length port holds the length of the string,
the characters below it are the string's and those at and after it read as zero (10_state.md R26, R28, R29). -/
def Obligations.StringPortsShowTheStrings : Prop :=
  ∀ s : State, s.Inv →
    let o := s.portOut false
    o.uriLen.toNat = s.regs.uri.length ∧ o.uriCh.take o.uriLen.toNat = s.regs.uri ∧
    (∀ x ∈ o.uriCh.drop o.uriLen.toNat, x = 0x00) ∧
    o.auxBitsLen.toNat = s.regs.auxBits.length ∧ o.auxBitsB.take o.auxBitsLen.toNat = s.regs.auxBits ∧
    (∀ x ∈ o.auxBitsB.drop o.auxBitsLen.toNat, x = false) ∧
    o.auxTextLen.toNat = s.regs.auxText.length ∧ o.auxTextCh.take o.auxTextLen.toNat = s.regs.auxText ∧
    (∀ x ∈ o.auxTextCh.drop o.auxTextLen.toNat, x = 0x00)

/-! ### Faults -/

/-- Which command ends in which fault, and when: the table of 60_exceptions.md R217 without its last column, with the
priority of R218 between operands. -/
def Obligations.FaultExactlyWhen : Prop :=
  ∀ (i : Instr) (s t : State), exec i s = .next t →
    (t.regs.status = 0x2 ↔
      (∃ x ∈ decimalOperands i, ∃ c ∈ x, ¬ (0x30 ≤ c.toNat ∧ c.toNat ≤ 0x39)) ∨
      ∃ c ∈ hexOperand i, ¬ ((0x30 ≤ c.toNat ∧ c.toNat ≤ 0x39) ∨ (0x41 ≤ c.toNat ∧ c.toNat ≤ 0x46) ∨
        (0x61 ≤ c.toNat ∧ c.toNat ≤ 0x66))) ∧
    (t.regs.status = 0x3 ↔
      (∀ x ∈ decimalOperands i, alldigits x = true) ∧
      ∃ c ∈ sixbitText i, ∀ row ∈ block.sixbitTable, row.1 ≠ upperChar c) ∧
    (t.regs.status = 0x4 ↔
      ∃ bits n, i = .dec6 bits n ∧ (bits.length % 6 ≠ 0 ∨
        ∃ j, 6 * j + 6 ≤ bits.length ∧ ∃ g : BitVec 6, regBits g = (bits.drop (6 * j)).take 6 ∧ g ≠ 0 ∧
          ∀ row ∈ block.sixbitTable, row.2 ≠ g)) ∧
    (t.regs.status = 0x1 ∨ t.regs.status = 0x2 ∨ t.regs.status = 0x3 ∨ t.regs.status = 0x4)

/-- Exactly one fault is reported: `IllegalCommand` before any operand is examined, then the operands in slot order, so
that `TIAI.C` with a bad reference and a bad text reports `InvalidInput` (60_exceptions.md R218). -/
def Obligations.FaultPriority : Prop :=
  (∀ (s : State) (c : Command) (rest : List PortIn), Presents s c rest → Illegal c →
    step s = .next (codeShown 0x5 ⟨s.regs, rest⟩)) ∧
  ∀ (reference assetId : Str) (s : State),
    (alldigits reference = false → exec (.tiaiC reference assetId) s = .next (codeShown 0x2 s)) ∧
    (alldigits reference = true → (∃ c ∈ assetId, supported block.sixbitTable c = false) →
      exec (.tiaiC reference assetId) s = .next (codeShown 0x3 s))

/-- A fault writes its code to `STATUS` and clears every other result register in one update, nothing else changes and the
block is ready for the next command; it leaves nothing behind: the next command's result is the one it has from any state (60_exceptions.md R219, R220). -/
def Obligations.FaultEntry : Prop :=
  ∀ (f : CommandFault) (s : State),
    takeFault f s = codeShown f.code s ∧ ((takeFault f s).portOut false).cmdReady = true ∧
    (f.code = match f with
      | .invalidInput => 0x2
      | .unsupportedCharacter => 0x3
      | .invalidBitGroup => 0x4
      | .illegalCommand => 0x5) ∧
    ∀ (i : Instr) (r : ResultRegs) (t : State), exec i ⟨r, s.inputs⟩ = .next t → exec i (takeFault f s) = .next t

/-! ### Primitives -/

/-- `fit_N(v)` has `N` bits of value `v mod 2^N`; `fitbits_N` pads or keeps the last `N`, and of any numeral of `v` it is
`fit_N(v)` (00_scope.md R10). -/
def Obligations.FitKeepsTheLowBits : Prop :=
  (∀ n v : Nat, (fit n v).length = n ∧ bitsval (fit n v) = v % 2 ^ n) ∧
  ∀ (n : Nat) (b : Bits), fitbits n b = fit n (bitsval b)

/-- The string primitives (00_scope.md R8): what `head`, `tail`, `lpad0` and `strip0` keep and add, and that `upper` moves
each of `'a'..'z'` down by 0x20 and leaves every other character. -/
def Obligations.StringPrimitivesKeep : Prop :=
  ∀ (s : Str) (n : Nat),
    (∃ dropped, s = head s n ++ dropped ∧ (head s n).length = min n s.length) ∧
    (∃ dropped, s = dropped ++ tail s n ∧ (tail s n).length = min n s.length) ∧
    (∃ k, lpad0 s n = List.replicate k 0x30 ++ s ∧ (lpad0 s n).length = max n s.length) ∧
    (∃ k, s = List.replicate k 0x30 ++ strip0 s) ∧ (strip0 s).head? ≠ some 0x30 ∧
    (upper s).length = s.length ∧
    ∀ (i : Nat) (c : Byte), s[i]? = some c →
      (upper s)[i]? = some (if 0x61 ≤ c.toNat ∧ c.toNat ≤ 0x7A then BitVec.ofNat 8 (c.toNat - 0x20) else c)

/-- In a digit string the first character is the most significant digit, and the value is below the power of ten of its
length (00_scope.md R9; 20_memory.md R43). -/
def Obligations.DecimalNumeralDigits : Prop :=
  ∀ s : Str, alldigits s = true → decval s < 10 ^ s.length ∧
    ∀ (i : Nat) (c : Byte), s[i]? = some c → decval s / 10 ^ (s.length - 1 - i) % 10 = digitval c

/-! ### Check digit -/

/-- `CHKDIG` (40_check_digit.md R90, R91): the digit that makes the weighted sum, weight 3 at even indices from 0 and 1
at odd ones, a multiple of 10; `InvalidInput` when a character is no digit. -/
def Obligations.ChkdigCompletesTheWeightedSum : Prop :=
  ∀ (digits : Str) (s : State),
    (alldigits digits = true → ∃ k, k < 10 ∧
      ((∑ j ∈ Finset.range digits.length, (if j % 2 = 0 then 3 else 1) * digitval (digits.getD j 0x30)) + k) % 10 = 0 ∧
      exec (.chkdig digits) s = .next (textShown [BitVec.ofNat 8 (0x30 + k)] s)) ∧
    (alldigits digits = false → exec (.chkdig digits) s = .next (codeShown 0x2 s))

/-! ### Six-bit codec -/

/-- The alphabet is `#`, `-`, `/`, `0`-`9`, `A`-`Z` and space; every symbol but space has its ASCII value modulo 64,
space has zero; the table is one the source allows (41_sixbit_codec.md R100, R101). -/
def Obligations.SixbitTableIsLowSixBits : Prop :=
  block.sixbitTable.Allowed ∧ block.sixbitTable.length = 40 ∧
  ∀ c : Byte, SixbitTable.code? block.sixbitTable c =
    if c = 0x20 then some 0
    else if c = 0x23 ∨ c = 0x2D ∨ c = 0x2F ∨ (0x30 ≤ c.toNat ∧ c.toNat ≤ 0x39) ∨ (0x41 ≤ c.toNat ∧ c.toNat ≤ 0x5A)
    then some (BitVec.ofNat 6 (c.toNat % 64)) else none

/-- The round trip, for every table the source allows (41_sixbit_codec.md R104): decoding what was encoded gives the
capitals without the spaces, when no padding was added or it is whole groups; otherwise it faults; without spaces and
lowercase letters it is the identity. -/
def Obligations.SixbitRoundTrip : Prop :=
  ∀ (table : SixbitTable) (text : Str) (m : Nat), table.Allowed → text.all (supported table) = true →
    ∃ bits, sixbitEncode table text m = .ok bits ∧
      (m ≤ 6 * text.length ∨ m % 6 = 0 →
        sixbitDecode table bits 0 = .ok ((upper text).filter (· != 0x20))) ∧
      (6 * text.length < m → m % 6 ≠ 0 → bits.length = m ∧ sixbitDecode table bits 0 = .error .invalidBitGroup) ∧
      ((∀ c ∈ text, c ≠ 0x20 ∧ ¬ (0x61 ≤ c.toNat ∧ c.toNat ≤ 0x7A)) → m = 0 →
        sixbitDecode table bits 0 = .ok text)

/-- `ENC6` (41_sixbit_codec.md R102, R105): zeros up to `N` bits, then the six code bits of each character in order;
`UnsupportedCharacter` when a character has no code. -/
def Obligations.Enc6WritesTheCodes : Prop :=
  ∀ (text : Str) (n : BitVec 8) (s : State),
    (text.all (supported block.sixbitTable) = true →
      ∃ bits : Bits, exec (.enc6 text n) s = .next (bitsShown bits s) ∧
        bits.length = max (6 * text.length) n.toNat ∧
        (text.length ≤ SMAX → bits.length ≤ AUX_CAP) ∧
        (∀ x ∈ bits.take (bits.length - 6 * text.length), x = false) ∧
        ∀ (i : Nat) (c : Byte), text[i]? = some c → ∃ row ∈ block.sixbitTable, row.1 = upperChar c ∧
          (bits.drop (bits.length - 6 * text.length + 6 * i)).take 6 = fit 6 row.2.toNat) ∧
    (text.all (supported block.sixbitTable) = false → exec (.enc6 text n) s = .next (codeShown 0x3 s))

/-- `DEC6` (41_sixbit_codec.md R103, R106): of whole groups, each all-zero or a code, the nonzero ones give their symbols
in order, left-padded with the digit `'0'` to `N`; any other bit string is `InvalidBitGroup`. -/
def Obligations.Dec6ReadsTheGroups : Prop :=
  ∀ (bits : Bits) (n : BitVec 8) (s : State),
    (∀ rows : List (Byte × BitVec 6), (∀ row ∈ rows, row.2 = 0 ∨ row ∈ block.sixbitTable) →
      bits = rows.flatMap (fun row => fit 6 row.2.toNat) →
      ∃ text : Str, exec (.dec6 bits n) s = .next (textShown text s) ∧
        text.length = max ((rows.filter fun row => row.2 != 0).length) n.toNat ∧
        (bits.length ≤ BMAX → text.length ≤ AUX_CAP) ∧
        text = List.replicate (n.toNat - (rows.filter fun row => row.2 != 0).length) 0x30 ++
          (rows.filter fun row => row.2 != 0).map Prod.fst) ∧
    ((¬ ∃ rows : List (Byte × BitVec 6), (∀ row ∈ rows, row.2 = 0 ∨ row ∈ block.sixbitTable) ∧
      bits = rows.flatMap (fun row => fit 6 row.2.toNat)) →
      exec (.dec6 bits n) s = .next (codeShown 0x4 s))

/-! ### Partition table -/

/-- `PARTQ` writes the row of the code, the `110` row for `111`; the values are those the spec tabulates and never a
fault (42_partition_table.md R120, R121, R122). -/
def Obligations.PartqWritesTheRow : Prop :=
  ∀ s : State,
    exec (.partq 0b000) s = .next (rowShown (0b000#3 ++ 40#6 ++ 12#4 ++ 4#5 ++ 1#3) s) ∧
    exec (.partq 0b001) s = .next (rowShown (0b001#3 ++ 37#6 ++ 11#4 ++ 7#5 ++ 2#3) s) ∧
    exec (.partq 0b010) s = .next (rowShown (0b010#3 ++ 34#6 ++ 10#4 ++ 10#5 ++ 3#3) s) ∧
    exec (.partq 0b011) s = .next (rowShown (0b011#3 ++ 30#6 ++ 9#4 ++ 14#5 ++ 4#3) s) ∧
    exec (.partq 0b100) s = .next (rowShown (0b100#3 ++ 27#6 ++ 8#4 ++ 17#5 ++ 5#3) s) ∧
    exec (.partq 0b101) s = .next (rowShown (0b101#3 ++ 24#6 ++ 7#4 ++ 20#5 ++ 6#3) s) ∧
    exec (.partq 0b110) s = .next (rowShown (0b110#3 ++ 20#6 ++ 6#4 ++ 24#5 ++ 7#3) s) ∧
    exec (.partq 0b111) s = .next (rowShown (0b110#3 ++ 20#6 ++ 6#4 ++ 24#5 ++ 7#3) s)

/-- The sums and bounds of every row (42_partition_table.md R123). -/
def Obligations.PartitionRowsFit : Prop :=
  ∀ p : BitVec 3,
    (partrow p).managerBits + (partrow p).itemBits = 44 ∧
    (partrow p).managerDigits + (partrow p).itemDigits = 13 ∧
    10 ^ (partrow p).managerDigits < 2 ^ (partrow p).managerBits ∧
    10 ^ (partrow p).itemDigits < 2 ^ (partrow p).itemBits

/-! ### Tag layouts, for field strings of any length -/

/-- GID-96 (30_encoding.md R72): header, 28, 24 and 36 bits at their places, each the low bits of its field's value. -/
def Obligations.GidLayoutPlaces : Prop :=
  ∀ mgr item ser : Str, (layoutGid mgr item ser).length = 96 ∧
    let tag := toReg 96 (layoutGid mgr item ser)
    tag.extractLsb' 88 8 = 0x35 ∧ (tag.extractLsb' 60 28).toNat = decval mgr % 2 ^ 28 ∧
    (tag.extractLsb' 36 24).toNat = decval item % 2 ^ 24 ∧ (tag.extractLsb' 0 36).toNat = decval ser % 2 ^ 36

/-- SGTIN-96 (30_encoding.md R73, R74): header, filter, partition bits, and the manager and item fields at the places the
partition row gives. -/
def Obligations.SgtinLayoutPlaces : Prop :=
  ∀ (p part3 : BitVec 3) (mgr item ser : Str),
    let r := partrow p
    (layoutSgtin r part3 mgr item ser).length = 96 ∧
    let tag := toReg 96 (layoutSgtin r part3 mgr item ser)
    tag.extractLsb' 88 8 = 0x30 ∧ tag.extractLsb' 85 3 = 0b001 ∧ tag.extractLsb' 82 3 = part3 ∧
    (tag.extractLsb' (82 - r.managerBits) r.managerBits).toNat = decval mgr % 2 ^ r.managerBits ∧
    (tag.extractLsb' 38 r.itemBits).toNat = decval item % 2 ^ r.itemBits ∧
    (tag.extractLsb' 0 38).toNat = decval ser % 2 ^ 38

/-- TCIN-96 (30_encoding.md R75). -/
def Obligations.TcinLayoutPlaces : Prop :=
  ∀ item ser : Str, (layoutTcin item ser).length = 96 ∧
    let tag := toReg 96 (layoutTcin item ser)
    tag.extractLsb' 88 8 = 0x08 ∧ tag.extractLsb' 85 3 = 0b000 ∧
    (tag.extractLsb' 50 35).toNat = decval item % 2 ^ 35 ∧ (tag.extractLsb' 0 50).toNat = decval ser % 2 ^ 50

/-- TIAI-96 (30_encoding.md R76): any 72 bits of asset ID stand in `TAG[71:0]`. -/
def Obligations.TiaiLayoutPlaces : Prop :=
  ∀ (ref : Str) (id72 : Bits), id72.length = 72 → (layoutTiai ref id72).length = 96 ∧
    let tag := toReg 96 (layoutTiai ref id72)
    tag.extractLsb' 88 8 = 0x0A ∧ tag.extractLsb' 85 3 = 0b000 ∧
    (tag.extractLsb' 72 13).toNat = decval ref % 2 ^ 13 ∧ regBits (tag.extractLsb' 0 72) = id72

/-- A test bench that reads the header finds the scheme of the command that made the tag, and no scheme's after any other
command or fault (30_encoding.md R71, R79; 70_reset_and_hazards.md R242). -/
def Obligations.HeaderNamesTheScheme : Prop :=
  (∀ (i : Instr) (s t : State), exec i s = .next t →
    schemeOf t.regs.tag = if t.regs.status = 0x1 then schemeMade i else none) ∧
  schemeOf State.reset.regs.tag = none

/-! ### Tag commands: the whole result, in the values of the operands -/

/-- `GID.DPCI` (44_gid_encoders.md R150), from the decimal values of the truncated operands; `k` is the check digit over
"49", department, class and item. -/
def Obligations.GidDpciResult : Prop :=
  ∀ (department cls item serial : Str) (s : State),
    (alldigits department = true ∧ alldigits cls = true ∧ alldigits item = true ∧ alldigits serial = true →
      let d := decval (head department 3)
      let c := decval (head cls 2)
      let i := decval (head item 4)
      ∃ k, k < 10 ∧
        (3 * 4 + 9 + 3 * (d / 100) + d / 10 % 10 + 3 * (d % 10) + c / 10 + 3 * (c % 10)
          + i / 1000 + 3 * (i / 100 % 10) + i / 10 % 10 + 3 * (i % 10) + k) % 10 = 0 ∧
        let v := 0x35 * 2 ^ 88 + (4900000 + 100 * d + c) * 2 ^ 60 + (10 * i + k) * 2 ^ 36 + decval (head serial 10)
        v < 2 ^ 96 ∧
        exec (.gidDpci department cls item serial) s = .next (tagShown v
          (ascii "urn:epc:tag:gid-96:" ++ ascii "049" ++ lpad0 (head department 3) 3 ++ lpad0 (head cls 2) 2 ++ [0x2E] ++
            ascii "00" ++ lpad0 (head item 4) 4 ++ [BitVec.ofNat 8 (0x30 + k)] ++ [0x2E] ++ head serial 10) s)) ∧
    (alldigits department = false ∨ alldigits cls = false ∨ alldigits item = false ∨ alldigits serial = false →
      exec (.gidDpci department cls item serial) s = .next (codeShown 0x2 s))

/-- `GID.GTIN` (44_gid_encoders.md R151): the first eight of the 14 digits are the manager, the last six the item, with
one zero before it; the URI shows the serial as supplied. -/
def Obligations.GidGtinResult : Prop :=
  ∀ (gtin serial : Str) (s : State),
    (alldigits gtin = true ∧ alldigits serial = true →
      let g := decval (head gtin 14)
      let v := 0x35 * 2 ^ 88 + (g / 10 ^ 6) * 2 ^ 60 + (g % 10 ^ 6) * 2 ^ 36 + decval (head serial 10)
      v < 2 ^ 96 ∧
      ∃ first last : Str, first.length = 8 ∧ last.length = 6 ∧ first ++ last = lpad0 (head gtin 14) 14 ∧
        exec (.gidGtin gtin serial) s = .next (tagShown v
          (ascii "urn:epc:tag:gid-96:" ++ first ++ [0x2E] ++ [0x30] ++ last ++ [0x2E] ++ head serial 10) s)) ∧
    (alldigits gtin = false ∨ alldigits serial = false → exec (.gidGtin gtin serial) s = .next (codeShown 0x2 s))

/-- `SGTIN` (45_sgtin_encoder.md R170, R171): the eleven digits `g[2]` to `g[12]` are split in two by the partition code,
each part with a zero before it; for `111` everything is as for `110`, the bits written included (that they are is
`SGTIN_ELSE_EMIT = ROW`, 00_scope.md R5). -/
def Obligations.SgtinResult : Prop :=
  ∀ (gtin serial : Str) (p : BitVec 3) (s : State),
    (alldigits gtin = true ∧ alldigits serial = true →
      let k := min p.toNat 6
      let digits := decval (head gtin 14) / 10 % 10 ^ 11
      let itemBits := [4, 7, 10, 14, 17, 20, 24].getD k 0
      let v := 0x30 * 2 ^ 88 + 1 * 2 ^ 85 + k * 2 ^ 82 + (digits / 10 ^ k) * 2 ^ (38 + itemBits)
        + (digits % 10 ^ k) * 2 ^ 38 + decval (head serial 11)
      v < 2 ^ 96 ∧
      ∃ before first last : Str, ∃ check : Byte, before.length = 2 ∧ first.length = 11 - k ∧ last.length = k ∧
        before ++ first ++ last ++ [check] = lpad0 (head gtin 14) 14 ∧
        exec (.sgtin gtin serial p) s = .next (tagShown v
          (ascii "urn:epc:tag:sgtin-96:1." ++ [0x30] ++ first ++ [0x2E] ++ [0x30] ++ last ++ [0x2E] ++ head serial 11) s)) ∧
    (alldigits gtin = false ∨ alldigits serial = false → exec (.sgtin gtin serial p) s = .next (codeShown 0x2 s))

/-- The partition bits in the tag for either value of `SGTIN_ELSE_EMIT`: the code itself for `000` to `110`; for `111`
the row's `110` or the supplied `111` (45_sgtin_encoder.md R172). -/
def Obligations.SgtinPartitionBits : Prop :=
  ∀ (params : Params) (gtin serial : Str) (p : BitVec 3) (r : ResultRegs),
    sgtin params gtin serial p = .ok r →
    r.tag.extractLsb' 82 3 =
      if p.toNat ≤ 6 then p else if params.sgtinElseEmit = .row then 0b110 else 0b111

/-- `TCIN` (46_tcin_encoder.md R185): both components lose their leading zeros in the URI, an empty one leaves its `.`. -/
def Obligations.TcinResult : Prop :=
  ∀ (item serial : Str) (s : State),
    (alldigits item = true ∧ alldigits serial = true →
      let v := 0x08 * 2 ^ 88 + decval (head item 10) * 2 ^ 50 + decval (head serial 15)
      v < 2 ^ 96 ∧
      exec (.tcin item serial) s = .next (tagShown v
        (ascii "urn:epc:tag:tcin-96:0." ++ strip0 (head item 10) ++ [0x2E] ++ strip0 (head serial 15)) s)) ∧
    (alldigits item = false ∨ alldigits serial = false → exec (.tcin item serial) s = .next (codeShown 0x2 s))

/-- `TIAI.D` (47_tiai_encoders.md R195, R196): the reference keeps its last 3 digits, the asset ID its first 21. -/
def Obligations.TiaiDResult : Prop :=
  ∀ (reference assetId : Str) (s : State),
    (alldigits reference = true ∧ alldigits assetId = true →
      let v := 0x0A * 2 ^ 88 + decval (tail reference 3) * 2 ^ 72 + decval (head assetId 21)
      v < 2 ^ 96 ∧
      exec (.tiaiD reference assetId) s = .next (tagShown v
        (ascii "urn:epc:tag:tiai-96:0." ++ strip0 (tail reference 3) ++ [0x2E] ++ strip0 (head assetId 21)) s)) ∧
    (alldigits reference = false ∨ alldigits assetId = false →
      exec (.tiaiD reference assetId) s = .next (codeShown 0x2 s))

/-- `TIAI.C` (47_tiai_encoders.md R195, R197): the codes of the first 12 characters, read as one base-64 numeral, stand
at the low end of the field; the URI shows them as supplied. -/
def Obligations.TiaiCResult : Prop :=
  ∀ (reference assetId : Str) (s : State),
    (alldigits reference = true ∧ assetId.all (supported block.sixbitTable) = true →
      let a := (upper (head assetId 12)).foldl
        (fun v c => 64 * v + ((SixbitTable.code? block.sixbitTable c).getD 0).toNat) 0
      let v := 0x0A * 2 ^ 88 + decval (tail reference 3) * 2 ^ 72 + a
      a < 64 ^ (head assetId 12).length ∧ v < 2 ^ 96 ∧
      exec (.tiaiC reference assetId) s = .next (tagShown v
        (ascii "urn:epc:tag:tiai-96:0." ++ strip0 (tail reference 3) ++ [0x2E] ++ head assetId 12) s)) ∧
    (alldigits reference = false → exec (.tiaiC reference assetId) s = .next (codeShown 0x2 s)) ∧
    (alldigits reference = true → assetId.all (supported block.sixbitTable) = false →
      exec (.tiaiC reference assetId) s = .next (codeShown 0x3 s))

/-- `TIAI.H` (47_tiai_encoders.md R195, R198): the first 18 hexadecimal digits, either case, fill the field. -/
def Obligations.TiaiHResult : Prop :=
  ∀ (reference assetId : Str) (s : State),
    (alldigits reference = true ∧ allhex assetId = true →
      let v := 0x0A * 2 ^ 88 + decval (tail reference 3) * 2 ^ 72 + hexval (head assetId 18)
      v < 2 ^ 96 ∧
      exec (.tiaiH reference assetId) s = .next (tagShown v
        (ascii "urn:epc:tag:tiai-96:0." ++ strip0 (tail reference 3) ++ [0x2E] ++ strip0 (head assetId 18)) s)) ∧
    (alldigits reference = false ∨ allhex assetId = false →
      exec (.tiaiH reference assetId) s = .next (codeShown 0x2 s))

/-! ### What follows for the tag commands -/

/-- No tag command ever discards a 1 bit: every field string's value fits its field (43_field_packing.md R135). -/
def Obligations.FieldValuesFit : Prop :=
  (∀ d c i serial : Str, alldigits d = true → alldigits c = true → alldigits i = true → alldigits serial = true →
    decval (ascii "049" ++ lpad0 (head d 3) 3 ++ lpad0 (head c 2) 2) < 2 ^ 28 ∧
    (∀ k : Byte, isdigit k = true → decval (ascii "00" ++ lpad0 (head i 4) 4 ++ [k]) < 2 ^ 24) ∧
    decval (head serial 10) < 2 ^ 36) ∧
  (∀ gtin : Str, alldigits gtin = true →
    decval (substr (gtin14 gtin) 0 8) < 2 ^ 28 ∧ decval (lpad0 (substr (gtin14 gtin) 8 14) 7) < 2 ^ 24 ∧
    ∀ p : BitVec 3, decval (sgtinManager (partrow p) (gtin14 gtin)) < 2 ^ (partrow p).managerBits ∧
      decval (sgtinItem (partrow p) (gtin14 gtin)) < 2 ^ (partrow p).itemBits) ∧
  (∀ x : Str, alldigits x = true → decval (head x 11) < 2 ^ 38 ∧ decval (lpad0 (head x 10) 10) < 2 ^ 35 ∧
    decval (head x 15) < 2 ^ 50 ∧ decval (tail x 3) < 2 ^ 13 ∧ decval (head x 21) < 2 ^ 72) ∧
  (∀ x : Str, allhex x = true → hexval (head x 18) < 2 ^ 72) ∧
  ∀ (table : SixbitTable) (x : Str) (b : Bits), sixbitEncode table (head x 12) 72 = .ok b →
    b.length = 72 ∧ fitbits 72 b = b

/-- The longest URI of each command, and with it that every URI fits its register, for every prefix the spec allows
(43_field_packing.md R141). -/
def Obligations.UriLengths : Prop :=
  (∀ (i : Instr) (s t : State), exec i s = .next t → t.regs.uri.length ≤ 49 ∧
    match i with
    | .gidDpci _ _ _ _ => t.regs.uri.length ≤ 46
    | .gidGtin _ _ => t.regs.uri.length ≤ 46
    | .sgtin _ _ _ => t.regs.uri.length ≤ 49
    | .tcin _ _ => t.regs.uri.length ≤ 48
    | .tiaiD _ _ => t.regs.uri.length ≤ 47
    | .tiaiC _ _ => t.regs.uri.length ≤ 47
    | .tiaiH _ _ => t.regs.uri.length ≤ 47
    | .chkdig _ => t.regs.uri.length = 0
    | .enc6 _ _ => t.regs.uri.length = 0
    | .dec6 _ _ => t.regs.uri.length = 0
    | .partq _ => t.regs.uri.length = 0) ∧
  ∀ (params : Params), params.Allowed → ∀ (reference assetId : Str) (r : ResultRegs),
    (tiaiD params reference assetId = .ok r ∨ tiaiC params reference assetId = .ok r ∨
      tiaiH params reference assetId = .ok r) → r.uri.length ≤ URI_CAP

/-- Spellings of one GTIN that differ only in leading zeros give the same tag and the same URI: the normalised GTIN is the
same (43_field_packing.md R138; 44_gid_encoders.md R151). -/
def Obligations.GtinLeadingZerosDoNotMatter : Prop :=
  ∀ (gtin serial : Str) (p : BitVec 3) (s : State), gtin.length < 14 →
    (gtin14 gtin).length = 14 ∧ gtin14 ([0x30] ++ gtin) = gtin14 gtin ∧
    exec (.gidGtin ([0x30] ++ gtin) serial) s = exec (.gidGtin gtin serial) s ∧
    exec (.sgtin ([0x30] ++ gtin) serial p) s = exec (.sgtin gtin serial p) s

/-- `SGTIN` never uses `g[0]`, `g[1]` and the check digit `g[13]` (45_sgtin_encoder.md R171). -/
def Obligations.SgtinDropsThreeDigits : Prop :=
  ∀ (a b c a' b' c' : Byte) (mid serial : Str) (p : BitVec 3) (s : State), mid.length = 11 →
    isdigit a = true → isdigit b = true → isdigit c = true → isdigit a' = true → isdigit b' = true →
    isdigit c' = true →
    exec (.sgtin ([a, b] ++ mid ++ [c]) serial p) s = exec (.sgtin ([a', b'] ++ mid ++ [c']) serial p) s

/-- `TIAI.C` packs what `ENC6` with `min_bits` 72 gives: for a text of at most 12 characters `TAG[71:0]` is `AUXBITS`
(47_tiai_encoders.md R197; 41_sixbit_codec.md R105). -/
def Obligations.TiaiCPacksTheEnc6Bits : Prop :=
  ∀ (reference text : Str) (s : State), alldigits reference = true → text.all (supported block.sixbitTable) = true →
    text.length ≤ 12 → ∃ t u, exec (.tiaiC reference text) s = .next t ∧ exec (.enc6 text 72) s = .next u ∧
      regBits (t.regs.tag.extractLsb' 0 72) = u.regs.auxBits

/-- The URI prefix of the asset-identifier tag changes the URI only: for any two prefixes the tags are equal
(43_field_packing.md R136; 47_tiai_encoders.md R195). -/
def Obligations.TiaiPrefixChangesTheUriOnly : Prop :=
  ∀ (params : Params) (opening : Str) (reference assetId : Str) (r : ResultRegs),
    (tiaiD params reference assetId = .ok r → ∃ r' component, r.uri = params.tiaiUriPrefix ++ component ∧
      tiaiD { params with tiaiUriPrefix := opening } reference assetId = .ok r' ∧
      r' = { r with uri := opening ++ component }) ∧
    (tiaiC params reference assetId = .ok r → ∃ r' component, r.uri = params.tiaiUriPrefix ++ component ∧
      tiaiC { params with tiaiUriPrefix := opening } reference assetId = .ok r' ∧
      r' = { r with uri := opening ++ component }) ∧
    (tiaiH params reference assetId = .ok r → ∃ r' component, r.uri = params.tiaiUriPrefix ++ component ∧
      tiaiH { params with tiaiUriPrefix := opening } reference assetId = .ok r' ∧
      r' = { r with uri := opening ++ component })

/-- Letter case of a hexadecimal asset ID does not affect the tag; the URI echoes it (47_tiai_encoders.md R198). -/
def Obligations.HexCaseDoesNotChangeTheTag : Prop :=
  ∀ (reference assetId : Str) (s : State), alldigits reference = true → allhex assetId = true →
    ∃ t u, exec (.tiaiH reference assetId) s = .next t ∧ exec (.tiaiH reference (upper assetId)) s = .next u ∧
      t.regs.status = 0x1 ∧ u.regs.status = 0x1 ∧ t.regs.tag = u.regs.tag ∧
      (t.regs.uri.map upperChar) = (u.regs.uri.map upperChar)
end

