-- ==== Sys2Proof/Laws/Operands.lean ====
section
/-!
SUPPORT. What the primitives do: lengths, values and classes (00_scope.md R7 to R11).
-/

namespace Sys2Proof.Machine

/-! ### Lengths -/

@[simp] theorem head_length (s : Str) (n : Nat) : (head s n).length = min n s.length := by simp [head]

@[simp] theorem tail_length (s : Str) (n : Nat) : (tail s n).length = min n s.length := by
  simp [tail]; omega

@[simp] theorem lpad0_length (s : Str) (n : Nat) : (lpad0 s n).length = max n s.length := by
  simp [lpad0]; omega

@[simp] theorem substr_length (s : Str) (a b : Nat) : (substr s a b).length = min b s.length - a := by
  simp [substr]

theorem lpad0_head_length (s : Str) (n : Nat) : (lpad0 (head s n) n).length = n := by simp

@[simp] theorem gtin14_length (s : Str) : (gtin14 s).length = 14 := lpad0_head_length s 14

theorem strip0_length_le (s : Str) : (strip0 s).length ≤ s.length :=
  (List.dropWhile_sublist _).length_le

@[simp] theorem upper_length (s : Str) : (upper s).length = s.length := by simp [upper]

@[simp] theorem fit_length (n v : Nat) : (fit n v).length = n := by
  induction n with
  | zero => rfl
  | succ n ih => simp [fit, ih]

@[simp] theorem dec2bin_length (n : Nat) (s : Str) : (dec2bin n s).length = n := fit_length n _

@[simp] theorem hex2bin_length (n : Nat) (s : Str) : (hex2bin n s).length = n := fit_length n _

@[simp] theorem regBits_length {n : Nat} (v : BitVec n) : (regBits v).length = n := fit_length n _

/-! ### Classes -/

theorem isdigit_iff (c : Byte) : isdigit c = true ↔ 0x30 ≤ c.toNat ∧ c.toNat ≤ 0x39 := by simp [isdigit]

@[simp] theorem isdigit_chZero : isdigit chZero = true := by decide

@[simp] theorem alldigits_nil : alldigits [] = true := rfl

@[simp] theorem alldigits_cons (c : Byte) (s : Str) : alldigits (c :: s) = (isdigit c && alldigits s) := rfl

@[simp] theorem alldigits_append (s t : Str) : alldigits (s ++ t) = (alldigits s && alldigits t) := by
  simp [alldigits]

theorem alldigits_iff (s : Str) : alldigits s = true ↔ ∀ c ∈ s, isdigit c = true := by simp [alldigits]

/-- A part of a digit string is a digit string. -/
theorem alldigits_of_subset {s t : Str} (h : ∀ c ∈ t, c ∈ s) (hs : alldigits s = true) : alldigits t = true :=
  (alldigits_iff t).2 fun c hc => (alldigits_iff s).1 hs c (h c hc)

theorem alldigits_head {s : Str} (hs : alldigits s = true) (n : Nat) : alldigits (head s n) = true :=
  alldigits_of_subset (fun _ hc => List.mem_of_mem_take hc) hs

theorem alldigits_tail {s : Str} (hs : alldigits s = true) (n : Nat) : alldigits (tail s n) = true :=
  alldigits_of_subset (fun _ hc => List.mem_of_mem_drop hc) hs

theorem alldigits_substr {s : Str} (hs : alldigits s = true) (a b : Nat) : alldigits (substr s a b) = true :=
  alldigits_of_subset (fun _ hc => List.mem_of_mem_take (List.mem_of_mem_drop hc)) hs

theorem alldigits_lpad0 {s : Str} (hs : alldigits s = true) (n : Nat) : alldigits (lpad0 s n) = true := by
  simp only [lpad0, alldigits_append, hs, Bool.and_true]
  exact (alldigits_iff _).2 fun c hc => by rw [List.eq_of_mem_replicate hc]; decide

theorem alldigits_gtin14 {s : Str} (hs : alldigits s = true) : alldigits (gtin14 s) = true :=
  alldigits_lpad0 (alldigits_head hs 14) 14

theorem allhex_head {s : Str} (hs : allhex s = true) (n : Nat) : allhex (head s n) = true := by
  simp only [allhex, List.all_eq_true] at hs ⊢
  exact fun c hc => hs c (List.mem_of_mem_take hc)

theorem digitval_lt {c : Byte} (h : isdigit c = true) : digitval c < 10 := by
  have := (isdigit_iff c).1 h
  simp only [digitval]; omega

theorem hexdigitval_lt {c : Byte} (h : ishex c = true) : hexdigitval c < 16 := by
  simp only [ishex, isdigit, isUpperHex, isLowerHex, Bool.or_eq_true, Bool.and_eq_true, decide_eq_true_eq] at h
  simp only [hexdigitval, isdigit, isUpperHex, Bool.and_eq_true, decide_eq_true_eq]
  split
  · omega
  · split <;> omega

/-! ### Numerals: a value in any base is a fold over the digits -/

/-- A numeral read on from a value already read. -/
theorem numeral_foldl {α : Type} (base : Nat) (val : α → Nat) (s : List α) (v : Nat) :
    s.foldl (fun v c => base * v + val c) v = v * base ^ s.length + s.foldl (fun v c => base * v + val c) 0 := by
  induction s generalizing v with
  | nil => simp
  | cons c s ih =>
    simp only [List.foldl_cons, List.length_cons, Nat.mul_zero, Nat.zero_add]
    rw [ih (base * v + val c), ih (val c)]
    ring

/-- A numeral is below the power of its base. -/
theorem numeral_lt {α : Type} (base : Nat) (val : α → Nat) (s : List α) (h : ∀ c ∈ s, val c < base) :
    s.foldl (fun v c => base * v + val c) 0 < base ^ s.length := by
  induction s with
  | nil => simp
  | cons c s ih =>
    have hc := h c (by simp)
    have ih := ih fun d hd => h d (by simp [hd])
    simp only [List.foldl_cons, List.length_cons, Nat.mul_zero, Nat.zero_add]
    rw [numeral_foldl, pow_succ]
    calc val c * base ^ s.length + _ < val c * base ^ s.length + base ^ s.length := by omega
      _ = (val c + 1) * base ^ s.length := by ring
      _ ≤ base * base ^ s.length := Nat.mul_le_mul_right _ hc
      _ = _ := by ring

@[simp] theorem decval_nil : decval [] = 0 := rfl

theorem decval_append (s t : Str) : decval (s ++ t) = decval s * 10 ^ t.length + decval t := by
  simp only [decval, List.foldl_append]
  exact numeral_foldl 10 digitval t _

theorem decval_cons (c : Byte) (s : Str) : decval (c :: s) = digitval c * 10 ^ s.length + decval s := by
  simpa [decval] using decval_append [c] s

theorem decval_lt {s : Str} (h : alldigits s = true) : decval s < 10 ^ s.length :=
  numeral_lt 10 digitval s fun c hc => digitval_lt ((alldigits_iff s).1 h c hc)

/-- A digit string of at most `n` characters has a value below `10^n`. -/
theorem decval_lt_of_length_le {s : Str} {n : Nat} (h : alldigits s = true) (hn : s.length ≤ n) :
    decval s < 10 ^ n :=
  (decval_lt h).trans_le (Nat.pow_le_pow_right (by omega) hn)

theorem decval_head_lt {s : Str} (h : alldigits s = true) (n : Nat) : decval (head s n) < 10 ^ n :=
  decval_lt_of_length_le (alldigits_head h n) (by simp)

theorem decval_tail_lt {s : Str} (h : alldigits s = true) (n : Nat) : decval (tail s n) < 10 ^ n :=
  decval_lt_of_length_le (alldigits_tail h n) (by simp)

@[simp] theorem decval_zeros (k : Nat) : decval (List.replicate k chZero) = 0 := by
  induction k with
  | zero => rfl
  | succ k ih => rw [List.replicate_succ, decval_cons, ih]; simp [digitval]

/-- Padding with zeros does not change the value (44_gid_encoders.md R151). -/
@[simp] theorem decval_lpad0 (s : Str) (n : Nat) : decval (lpad0 s n) = decval s := by
  rw [lpad0, decval_append, decval_zeros, Nat.zero_mul, Nat.zero_add]

theorem hexval_append (s t : Str) : hexval (s ++ t) = hexval s * 16 ^ t.length + hexval t := by
  simp only [hexval, List.foldl_append]
  exact numeral_foldl 16 hexdigitval t _

theorem hexval_lt {s : Str} (h : allhex s = true) : hexval s < 16 ^ s.length :=
  numeral_lt 16 hexdigitval s fun c hc => hexdigitval_lt (by simpa [allhex] using (List.all_eq_true.1 h) c hc)

theorem hexval_head_lt {s : Str} (h : allhex s = true) (n : Nat) : hexval (head s n) < 16 ^ n :=
  (hexval_lt (allhex_head h n)).trans_le (Nat.pow_le_pow_right (by omega) (by simp))

/-! ### Bit strings -/

theorem bitsval_append (a b : Bits) : bitsval (a ++ b) = bitsval a * 2 ^ b.length + bitsval b := by
  simp only [bitsval, List.foldl_append]
  exact numeral_foldl 2 Bool.toNat b _

theorem bitsval_cons (x : Bool) (b : Bits) : bitsval (x :: b) = x.toNat * 2 ^ b.length + bitsval b := by
  simpa [bitsval] using bitsval_append [x] b

theorem bitsval_lt (b : Bits) : bitsval b < 2 ^ b.length :=
  numeral_lt 2 Bool.toNat b fun x _ => by cases x <;> decide

@[simp] theorem bitsval_zeros (k : Nat) : bitsval (List.replicate k false) = 0 := by
  induction k with
  | zero => rfl
  | succ k ih => rw [List.replicate_succ, bitsval_cons, ih]; simp

/-- `fit_N(v)` has the value `v mod 2^N` (00_scope.md R10). -/
@[simp] theorem bitsval_fit (n v : Nat) : bitsval (fit n v) = v % 2 ^ n := by
  induction n with
  | zero => simp [fit, bitsval, Nat.mod_one]
  | succ n ih =>
    have hbit : v.testBit n = decide (v / 2 ^ n % 2 = 1) := Nat.testBit_eq_decide_div_mod_eq
    rw [fit, bitsval_cons, ih, fit_length, hbit, pow_succ, Nat.mod_mul]
    rcases Nat.mod_two_eq_zero_or_one (v / 2 ^ n) with h | h
    · simp [h]
    · simp [h]; ring

theorem bitsval_dec2bin (n : Nat) (s : Str) : bitsval (dec2bin n s) = decval s % 2 ^ n := bitsval_fit n _

theorem bitsval_hex2bin (n : Nat) (s : Str) : bitsval (hex2bin n s) = hexval s % 2 ^ n := bitsval_fit n _

@[simp] theorem bitsval_regBits {n : Nat} (v : BitVec n) : bitsval (regBits v) = v.toNat := by
  rw [regBits, bitsval_fit, Nat.mod_eq_of_lt v.isLt]

/-- A bit string is determined by its length and its value. -/
theorem bits_ext : ∀ {a b : Bits}, a.length = b.length → bitsval a = bitsval b → a = b
  | [], [], _, _ => rfl
  | [], _ :: _, h, _ => by simp at h
  | _ :: _, [], h, _ => by simp at h
  | x :: a, y :: b, hl, hv => by
    have hab : a.length = b.length := by simpa using hl
    rw [bitsval_cons, bitsval_cons, hab] at hv
    have ha := bitsval_lt a
    have hb := bitsval_lt b
    rw [hab] at ha
    cases x <;> cases y <;> simp at hv <;>
      first | exact absurd hv (by omega) | exact congrArg _ (bits_ext hab (by omega))

/-- `fit_N` of a bit string's own value and length is the bit string. -/
theorem fit_bitsval (b : Bits) : fit b.length (bitsval b) = b :=
  bits_ext (by simp) (by rw [bitsval_fit, Nat.mod_eq_of_lt (bitsval_lt b)])

@[simp] theorem fitbits_length (n : Nat) (b : Bits) : (fitbits n b).length = n := by
  unfold fitbits
  split <;> simp <;> omega

theorem fitbits_of_length {n : Nat} {b : Bits} (h : b.length = n) : fitbits n b = b := by
  simp [fitbits, h]

/-- The value of a register that holds a bit string of its width. -/
theorem toReg_toNat {n : Nat} {b : Bits} (h : b.length = n) : (toReg n b).toNat = bitsval b := by
  have := bitsval_lt b
  rw [h] at this
  simp [toReg, Nat.mod_eq_of_lt this]

theorem regBits_toReg {n : Nat} {b : Bits} (h : b.length = n) : regBits (toReg n b) = b := by
  apply bits_ext (by simp [h])
  rw [bitsval_regBits, toReg_toNat h]

theorem toReg_regBits {n : Nat} (v : BitVec n) : toReg n (regBits v) = v := by
  apply BitVec.eq_of_toNat_eq
  rw [toReg_toNat (by simp), bitsval_regBits]

/-- A slice of a register is the matching piece of its bit string. -/
theorem extractLsb'_toReg {n w : Nat} {a b c : Bits} (h : (a ++ b ++ c).length = n) (hb : b.length = w) :
    (toReg n (a ++ b ++ c)).extractLsb' c.length w = toReg w b := by
  apply BitVec.eq_of_toNat_eq
  rw [BitVec.extractLsb'_toNat, toReg_toNat h, toReg_toNat hb, bitsval_append, bitsval_append]
  have hc := bitsval_lt c
  have hbv := bitsval_lt b
  rw [hb] at hbv
  rw [Nat.shiftRight_eq_div_pow, Nat.add_comm, Nat.add_mul_div_right _ _ (by positivity), Nat.div_eq_of_lt hc,
    Nat.zero_add, hb, Nat.add_comm, Nat.add_mul_mod_self_right, Nat.mod_eq_of_lt hbv]

/-! ### `strip0`, `lpad0` -/

theorem strip0_zeros_append (k : Nat) (s : Str) : strip0 (List.replicate k chZero ++ s) = strip0 s := by
  induction k with
  | zero => rfl
  | succ k ih =>
    rw [List.replicate_succ, List.cons_append, ← ih]
    rfl

/-- Padding never shows through stripping (46_tcin_encoder.md R185). -/
@[simp] theorem strip0_lpad0 (s : Str) (n : Nat) : strip0 (lpad0 s n) = strip0 s := strip0_zeros_append _ s

theorem exists_zeros_strip0 (s : Str) : ∃ k, s = List.replicate k chZero ++ strip0 s := by
  induction s with
  | nil => exact ⟨0, rfl⟩
  | cons c s ih =>
    by_cases h : c = chZero
    · obtain ⟨k, hk⟩ := ih
      refine ⟨k + 1, ?_⟩
      have : strip0 (c :: s) = strip0 s := by rw [h]; rfl
      rw [this, List.replicate_succ, List.cons_append, ← hk, h]
    · exact ⟨0, by rw [strip0, List.dropWhile_cons_of_neg (by simpa using h)]; rfl⟩

theorem strip0_head_ne (s : Str) : (strip0 s).head? ≠ some chZero := by
  intro h
  have := List.head?_dropWhile_not (· == chZero) s
  rw [strip0] at h
  rw [h] at this
  simp at this

/-! ### Pieces of strings and bit strings -/

theorem substr_split (s : Str) (a b : Nat) (h : a ≤ b) : s = s.take a ++ substr s a b ++ s.drop b := by
  have e : s.take a = (s.take b).take a := by rw [List.take_take, Nat.min_eq_left h]
  rw [substr, e, List.take_append_drop, List.take_append_drop]

/-- The bits of a register that stand between `lo` and `lo + w`, when they were put there. -/
theorem extractLsb'_piece {n : Nat} {b : Bits} (before piece after : Bits) (w lo : Nat) (hb : b.length = n)
    (e : b = before ++ piece ++ after) (hp : piece.length = w) (ha : after.length = lo) :
    (toReg n b).extractLsb' lo w = toReg w piece := by
  subst e
  subst ha
  exact extractLsb'_toReg hb hp

theorem toReg_dec2bin_toNat (w : Nat) (s : Str) : (toReg w (dec2bin w s)).toNat = decval s % 2 ^ w := by
  rw [toReg_toNat (by simp), bitsval_dec2bin]

theorem hexdigitval_hexChar {v : Nat} (h : v < 16) : hexdigitval (hexChar v) = v := by
  interval_cases v <;> decide

theorem bin2hex_append {a : Bits} (h : a.length = 4) (b : Bits) :
    bin2hex (a ++ b) = hexChar (bitsval a) :: bin2hex b := by
  match a, h with
  | [_, _, _, _], _ => rfl

end Sys2Proof.Machine
end

