-- ==== Sys2Proof/Laws/Codec.lean ====
section
/-!
SUPPORT. The six-bit codec over any table (41_sixbit_codec.md R101 to R103).
-/

namespace Sys2Proof.Machine

/-! ### Table lookups -/

theorem code?_eq_some {table : SixbitTable} {c : Byte} {g : BitVec 6} (h : SixbitTable.code? table c = some g) :
    (c, g) ∈ table := by
  simp only [SixbitTable.code?, Option.map_eq_some_iff] at h
  obtain ⟨row, hrow, rfl⟩ := h
  have h1 := List.mem_of_find?_eq_some hrow
  have h2 := List.find?_some hrow
  have : row.1 = c := by simpa using h2
  rwa [← this]

theorem sym?_eq_some {table : SixbitTable} {c : Byte} {g : BitVec 6} (h : SixbitTable.sym? table g = some c) :
    (c, g) ∈ table := by
  simp only [SixbitTable.sym?, Option.map_eq_some_iff] at h
  obtain ⟨row, hrow, rfl⟩ := h
  have h1 := List.mem_of_find?_eq_some hrow
  have h2 := List.find?_some hrow
  have : row.2 = g := by simpa using h2
  rwa [← this]

/-- In an allowed table a symbol has the code of its row (41_sixbit_codec.md R101). -/
theorem code?_of_mem {table : SixbitTable} (ht : table.Allowed) {c : Byte} {g : BitVec 6} (h : (c, g) ∈ table) :
    SixbitTable.code? table c = some g := by
  cases hf : SixbitTable.code? table c with
  | none =>
    simp only [SixbitTable.code?, Option.map_eq_none_iff, List.find?_eq_none] at hf
    exact absurd (hf _ h) (by simp)
  | some g' =>
    have := List.inj_on_of_nodup_map ht.1 (code?_eq_some hf) h rfl
    simpa using congrArg Prod.snd this

/-- In an allowed table a code has the symbol of its row (41_sixbit_codec.md R101). -/
theorem sym?_of_mem {table : SixbitTable} (ht : table.Allowed) {c : Byte} {g : BitVec 6} (h : (c, g) ∈ table) :
    SixbitTable.sym? table g = some c := by
  cases hf : SixbitTable.sym? table g with
  | none =>
    simp only [SixbitTable.sym?, Option.map_eq_none_iff, List.find?_eq_none] at hf
    exact absurd (hf _ h) (by simp)
  | some c' =>
    have := List.inj_on_of_nodup_map ht.2.1 (sym?_eq_some hf) h rfl
    simpa using congrArg Prod.fst this

theorem sym?_none_iff (table : SixbitTable) (g : BitVec 6) :
    SixbitTable.sym? table g = none ↔ ∀ row ∈ table, row.2 ≠ g := by
  simp [SixbitTable.sym?]

theorem supported_false_iff (table : SixbitTable) (c : Byte) :
    supported table c = false ↔ ∀ row ∈ table, row.1 ≠ upperChar c := by
  simp [supported, SixbitTable.code?]

theorem supported_true_iff (table : SixbitTable) (c : Byte) :
    supported table c = true ↔ ∃ g, SixbitTable.code? table (upperChar c) = some g := by
  simp [supported, Option.isSome_iff_exists]

/-- The table the block runs at is one the source allows. -/
theorem block_allowed : block.Allowed := by decide

/-! ### Encoding -/

@[simp] theorem codeBits_length (table : SixbitTable) (c : Byte) : (codeBits table c).length = 6 := by simp [codeBits]

theorem body_length (table : SixbitTable) (t : Str) : (t.flatMap (codeBits table)).length = 6 * t.length := by
  induction t with
  | nil => rfl
  | cons c t ih => simp only [List.flatMap_cons, List.length_append, codeBits_length, ih, List.length_cons]; omega

theorem sixbitEncode_ok {table : SixbitTable} {text : Str} (h : text.all (supported table) = true) (m : Nat) :
    sixbitEncode table text m = .ok (List.replicate (m - 6 * text.length) false ++ (upper text).flatMap (codeBits table)) := by
  simp only [sixbitEncode, h, require, body_length, upper_length]
  rfl

theorem sixbitEncode_error {table : SixbitTable} {text : Str} (h : text.all (supported table) = false) (m : Nat) :
    sixbitEncode table text m = .error .unsupportedCharacter := by
  simp only [sixbitEncode, h, require]
  rfl

/-- The body read as one base-64 numeral of codes. -/
theorem bitsval_body (table : SixbitTable) (t : Str) :
    bitsval (t.flatMap (codeBits table)) =
      t.foldl (fun v c => 64 * v + ((SixbitTable.code? table c).getD 0).toNat) 0 := by
  induction t with
  | nil => rfl
  | cons c t ih =>
    rw [List.flatMap_cons, bitsval_append, ih, List.foldl_cons, body_length, codeBits, bitsval_regBits, Nat.pow_mul]
    rw [numeral_foldl 64 (fun c => ((SixbitTable.code? table c).getD 0).toNat) t (64 * 0 + _), Nat.mul_zero,
      Nat.zero_add]

/-- The six code bits of the character at index `i` of a text (41_sixbit_codec.md R102). -/
theorem body_slice (table : SixbitTable) {t : Str} {i : Nat} {c : Byte} (h : t[i]? = some c) :
    ((t.flatMap (codeBits table)).drop (6 * i)).take 6 = codeBits table c := by
  obtain ⟨hi, hc⟩ := List.getElem?_eq_some_iff.1 h
  have e : t = t.take i ++ (c :: t.drop (i + 1)) := by rw [← hc]; simp
  conv_lhs => rw [e, List.flatMap_append, List.flatMap_cons]
  rw [List.drop_append_of_le_length (by rw [body_length]; simp; omega),
    List.drop_eq_nil_of_le (by rw [body_length]; simp), List.nil_append, List.take_append_of_le_length (by simp)]
  exact List.take_of_length_le (by simp)

/-! ### Decoding -/

theorem groups6_append {a : Bits} (ha : a.length = 6) (b : Bits) : groups6 (a ++ b) = toReg 6 a :: groups6 b := by
  match a, ha with
  | [_, _, _, _, _, _], _ => rfl

theorem groups6_regBits_append (g : BitVec 6) (b : Bits) : groups6 (regBits g ++ b) = g :: groups6 b := by
  rw [groups6_append (by simp), toReg_regBits]

theorem groups6_flatMap {α : Type} (f : α → BitVec 6) (l : List α) :
    groups6 (l.flatMap fun x => regBits (f x)) = l.map f := by
  induction l with
  | nil => rfl
  | cons x l ih => rw [List.flatMap_cons, groups6_regBits_append, ih, List.map_cons]

/-- A bit string of whole groups is its groups put together. -/
theorem flatMap_groups6 : ∀ {b : Bits}, b.length % 6 = 0 → (groups6 b).flatMap regBits = b
  | [], _ => rfl
  | [_], h | [_, _], h | [_, _, _], h | [_, _, _, _], h | [_, _, _, _, _], h => by simp at h
  | a :: b :: c :: d :: e :: f :: rest, h => by
    have hr : rest.length % 6 = 0 := by simp only [List.length_cons] at h; omega
    rw [groups6, List.flatMap_cons, regBits_toReg (by simp), flatMap_groups6 hr]
    rfl

theorem groups6_eq_nil {b : Bits} (h : ∀ b5 b4 b3 b2 b1 b0 rest, b ≠ b5 :: b4 :: b3 :: b2 :: b1 :: b0 :: rest) :
    b.length < 6 ∧ groups6 b = [] := by
  match b, h with
  | [], _ | [_], _ | [_, _], _ | [_, _, _], _ | [_, _, _, _], _ | [_, _, _, _, _], _ => exact ⟨by simp, rfl⟩
  | b5 :: b4 :: b3 :: b2 :: b1 :: b0 :: rest, h => exact absurd rfl (h b5 b4 b3 b2 b1 b0 rest)

/-- A group of a bit string is six bits of it, from a multiple of six on (41_sixbit_codec.md R103). -/
theorem mem_groups6 (g : BitVec 6) (bits : Bits) :
    g ∈ groups6 bits ↔ ∃ j, 6 * j + 6 ≤ bits.length ∧ regBits g = (bits.drop (6 * j)).take 6 := by
  induction bits using groups6.induct with
  | case1 b5 b4 b3 b2 b1 b0 rest ih =>
    rw [groups6, List.mem_cons, ih]
    constructor
    · rintro (rfl | ⟨j, h1, h2⟩)
      · exact ⟨0, by simp, by rw [regBits_toReg (by rfl)]; rfl⟩
      · exact ⟨j + 1, by simp; omega, by rw [h2]; rfl⟩
    · rintro ⟨j, h1, h2⟩
      cases j with
      | zero =>
        left
        rw [← toReg_regBits g, h2]; rfl
      | succ j => exact .inr ⟨j, by simp at h1; omega, by rw [h2]; rfl⟩
  | case2 bits h =>
    obtain ⟨hl, e⟩ := groups6_eq_nil h
    rw [e]
    simp
    omega

theorem decodeGroup_zero (table : SixbitTable) : decodeGroup table 0 = .ok [] := by simp [decodeGroup]

theorem decodeGroup_of_mem {table : SixbitTable} (ht : table.Allowed) {c : Byte} {g : BitVec 6} (h : (c, g) ∈ table) :
    decodeGroup table g = .ok (if g = 0 then [] else [c]) := by
  unfold decodeGroup
  split
  · rfl
  · rw [sym?_of_mem ht h]

theorem decodeGroup_error {table : SixbitTable} {g : BitVec 6} {f : CommandFault} (h : decodeGroup table g = .error f) :
    f = .invalidBitGroup ∧ g ≠ 0 ∧ ∀ row ∈ table, row.2 ≠ g := by
  unfold decodeGroup at h
  split at h
  · simp at h
  · rename_i hg
    split at h
    · simp at h
    · rename_i hs
      exact ⟨by simpa using h.symm, hg, (sym?_none_iff table g).1 hs⟩

theorem decodeGroups_cons (table : SixbitTable) (g : BitVec 6) (gs : List (BitVec 6)) :
    decodeGroups table (g :: gs) =
      (decodeGroup table g).bind fun first => (decodeGroups table gs).bind fun others => .ok (first ++ others) := rfl

/-- Groups that are zero or codes decode to the symbols of the nonzero ones. -/
theorem decodeGroups_ok {table : SixbitTable} (ht : table.Allowed) (rows : List (Byte × BitVec 6))
    (h : ∀ row ∈ rows, row.2 = 0 ∨ row ∈ table) :
    decodeGroups table (rows.map Prod.snd) = .ok ((rows.filter fun row => row.2 != 0).map Prod.fst) := by
  induction rows with
  | nil => rfl
  | cons row rows ih =>
    have ih := ih fun r hr => h r (by simp [hr])
    have hg : decodeGroup table row.2 = .ok (if row.2 = 0 then [] else [row.1]) := by
      rcases h row (by simp) with h0 | hm
      · rw [h0]; exact decodeGroup_zero table
      · exact decodeGroup_of_mem ht hm
    rw [List.map_cons, decodeGroups_cons, hg, ih]
    by_cases h0 : row.2 = 0#6 <;> simp [h0, Except.bind]

theorem decodeGroups_error {table : SixbitTable} {gs : List (BitVec 6)} {f : CommandFault}
    (h : decodeGroups table gs = .error f) :
    f = .invalidBitGroup ∧ ∃ g ∈ gs, g ≠ 0 ∧ ∀ row ∈ table, row.2 ≠ g := by
  induction gs with
  | nil => simp [decodeGroups] at h
  | cons g gs ih =>
    rw [decodeGroups_cons] at h
    cases hg : decodeGroup table g with
    | error e =>
      rw [hg] at h
      obtain ⟨h1, h2⟩ := decodeGroup_error hg
      have : e = f := by simpa [Except.bind] using h
      exact ⟨this ▸ h1, g, by simp, h2⟩
    | ok a =>
      rw [hg] at h
      cases hgs : decodeGroups table gs with
      | ok b => rw [hgs] at h; simp [Except.bind] at h
      | error e =>
        rw [hgs] at h
        have : e = f := by simpa [Except.bind] using h
        obtain ⟨h1, x, hx, h2⟩ := ih (this ▸ hgs)
        exact ⟨h1, x, by simp [hx], h2⟩

/-- A bad group anywhere makes the whole decoding fault. -/
theorem decodeGroups_bad {table : SixbitTable} {gs : List (BitVec 6)} {g : BitVec 6} (hg : g ∈ gs) (h0 : g ≠ 0)
    (hr : ∀ row ∈ table, row.2 ≠ g) : decodeGroups table gs = .error .invalidBitGroup := by
  cases h : decodeGroups table gs with
  | error f => rw [(decodeGroups_error h).1]
  | ok out =>
    exfalso
    induction gs generalizing out with
    | nil => simp at hg
    | cons a gs ih =>
      rw [decodeGroups_cons] at h
      cases ha : decodeGroup table a with
      | error e => rw [ha] at h; simp [Except.bind] at h
      | ok x =>
        rw [ha] at h
        cases hgs : decodeGroups table gs with
        | error e => rw [hgs] at h; simp [Except.bind] at h
        | ok y =>
          rcases List.mem_cons.1 hg with rfl | hm
          · rw [decodeGroup, if_neg h0, (sym?_none_iff table g).2 hr] at ha
            cases ha
          · exact ih hm y hgs

theorem sixbitDecode_ok {table : SixbitTable} {bits : Bits} {out : Str} (h6 : bits.length % 6 = 0)
    (h : decodeGroups table (groups6 bits) = .ok out) (m : Nat) : sixbitDecode table bits m = .ok (lpad0 out m) := by
  simp only [sixbitDecode, h6, require, h]
  rfl

theorem sixbitDecode_partial {table : SixbitTable} {bits : Bits} (h6 : bits.length % 6 ≠ 0) (m : Nat) :
    sixbitDecode table bits m = .error .invalidBitGroup := by
  have : (bits.length % 6 == 0) = false := by simpa using h6
  simp only [sixbitDecode, this, require]
  rfl

theorem sixbitDecode_bad {table : SixbitTable} {bits : Bits} {g : BitVec 6} (hg : g ∈ groups6 bits) (h0 : g ≠ 0)
    (hr : ∀ row ∈ table, row.2 ≠ g) (m : Nat) : sixbitDecode table bits m = .error .invalidBitGroup := by
  by_cases h6 : bits.length % 6 = 0
  · simp only [sixbitDecode, h6, require, decodeGroups_bad hg h0 hr]
    rfl
  · exact sixbitDecode_partial h6 m

/-- Everything a decoding can do: it faults with `InvalidBitGroup` for one of its two reasons, or pads its symbols. -/
theorem sixbitDecode_cases (table : SixbitTable) (bits : Bits) (m : Nat) :
    (sixbitDecode table bits m = .error .invalidBitGroup ∧
      (bits.length % 6 ≠ 0 ∨ ∃ g ∈ groups6 bits, g ≠ 0 ∧ ∀ row ∈ table, row.2 ≠ g)) ∨
    ∃ out, bits.length % 6 = 0 ∧ decodeGroups table (groups6 bits) = .ok out ∧
      sixbitDecode table bits m = .ok (lpad0 out m) := by
  by_cases h6 : bits.length % 6 = 0
  · cases h : decodeGroups table (groups6 bits) with
    | ok out => exact .inr ⟨out, h6, rfl, sixbitDecode_ok h6 h m⟩
    | error f =>
      obtain ⟨-, g, hg, h0, hr⟩ := decodeGroups_error h
      exact .inl ⟨sixbitDecode_bad hg h0 hr m, .inr ⟨g, hg, h0, hr⟩⟩
  · exact .inl ⟨sixbitDecode_partial h6 m, .inl h6⟩

end Sys2Proof.Machine
end

