-- ==== Sys2Proof/Laws/Decode.lean ====
section
/-!
SUPPORT. The command word's fields, the operand slots, and the decoder's cases (30_encoding.md R55 to R61).
-/

namespace Sys2Proof

/-! ### Slots -/

theorem fillVector_toList {α : Type} (n : Nat) (x : α) (l : List α) :
    (fillVector n x l).toList = (l ++ List.replicate n x).take n := rfl

theorem fillVector_take {α : Type} {n : Nat} (x : α) {l : List α} (h : l.length ≤ n) :
    (fillVector n x l).toList.take l.length = l := by
  rw [fillVector_toList, List.take_take, Nat.min_eq_left h, List.take_left]

theorem len_toNat {s : Str} (h : s.length ≤ SMAX) : (BitVec.ofNat 6 s.length).toNat = s.length := by
  have h : s.length ≤ 32 := h
  simp only [BitVec.toNat_ofNat]
  omega

theorem bitLen_toNat {b : Bits} (h : b.length ≤ BMAX) : (BitVec.ofNat 8 b.length).toNat = b.length := by
  have h : b.length ≤ 192 := h
  simp only [BitVec.toNat_ofNat]
  omega

/-- A string that fits is read back from the slot that presents it. -/
theorem text_ofStr {s : Str} (h : s.length ≤ SMAX) : (StringSlot.ofStr s).text = s := by
  simp only [StringSlot.text, StringSlot.ofStr, len_toNat h]
  exact fillVector_take 0 h

theorem ofStr_len {s : Str} (h : s.length ≤ SMAX) : (StringSlot.ofStr s).len.toNat = s.length := len_toNat h

theorem bits_ofBits {b : Bits} (h : b.length ≤ BMAX) : (BitSlot.ofBits b).bits = b := by
  simp only [BitSlot.bits, BitSlot.ofBits, bitLen_toNat h]
  exact fillVector_take false h

theorem ofBits_len {b : Bits} (h : b.length ≤ BMAX) : (BitSlot.ofBits b).len.toNat = b.length := bitLen_toNat h

theorem take_ofStr (k : Fin 4) {s : Str} (h : s.length ≤ SMAX) : (StringSlot.ofStr s).take k = .ok s := by
  rw [StringSlot.take, if_pos (by rw [ofStr_len h]; exact h), text_ofStr h]

theorem take_ofBits {b : Bits} (h : b.length ≤ BMAX) : (BitSlot.ofBits b).take = .ok b := by
  rw [BitSlot.take, if_pos (by rw [ofBits_len h]; exact h), bits_ofBits h]

theorem text_length_le (slot : StringSlot) : slot.text.length ≤ SMAX := by
  simp [StringSlot.text]

theorem bits_length_le (slot : BitSlot) : slot.bits.length ≤ BMAX := by
  simp [BitSlot.bits]

theorem take_eq_ok {k : Fin 4} {slot : StringSlot} {s : Str} :
    slot.take k = .ok s ↔ slot.len.toNat ≤ SMAX ∧ slot.text = s := by
  unfold StringSlot.take
  split <;> simp [*]

theorem take_eq_error {k : Fin 4} {slot : StringSlot} {e : DecodeReject} :
    slot.take k = .error e ↔ SMAX < slot.len.toNat ∧ e = .stringTooLong k := by
  unfold StringSlot.take
  split
  · simp; omega
  · simp; constructor
    · intro h; exact ⟨by omega, h.symm⟩
    · intro h; exact h.2.symm

theorem takeBits_eq_ok {slot : BitSlot} {b : Bits} : slot.take = .ok b ↔ slot.len.toNat ≤ BMAX ∧ slot.bits = b := by
  unfold BitSlot.take
  split <;> simp [*]

/-! ### Command word fields (30_encoding.md R56) -/

theorem op_toNat (c : Command) : c.op.toNat = c.cmd.toNat % 16 := by
  simp [Command.op]

theorem p_toNat (c : Command) : c.p.toNat = c.cmd.toNat / 16 % 8 := by
  simp [Command.p, Nat.shiftRight_eq_div_pow]

theorem n_toNat (c : Command) : c.n.toNat = c.cmd.toNat / 256 := by
  have := c.cmd.isLt
  simp only [Command.n, BitVec.extractLsb'_toNat, Nat.shiftRight_eq_div_pow]
  omega

theorem rsv_eq (c : Command) : c.rsv = decide (c.cmd.toNat / 128 % 2 = 1) := by
  simp [Command.rsv, BitVec.getLsbD, Nat.testBit_eq_decide_div_mod_eq]

theorem commandWord_toNat (op : BitVec 4) (p : BitVec 3) (n : BitVec 8) :
    (commandWord op p n).toNat = n.toNat * 256 + p.toNat * 16 + op.toNat := by
  have h1 := op.isLt
  have h2 := p.isLt
  have e1 : (p ++ op).toNat = p.toNat * 16 + op.toNat := by
    rw [BitVec.toNat_append, Nat.shiftLeft_eq, Nat.mul_comm, ← Nat.two_pow_add_eq_or_of_lt h1, Nat.mul_comm]
  have e2 : (0#1 ++ (p ++ op)).toNat = p.toNat * 16 + op.toNat := by
    rw [BitVec.toNat_append, e1]; simp
  have h3 : (0#1 ++ (p ++ op)).toNat < 2 ^ (1 + (3 + 4)) := BitVec.isLt _
  rw [commandWord, BitVec.toNat_append, Nat.shiftLeft_eq, Nat.mul_comm, ← Nat.two_pow_add_eq_or_of_lt h3, e2]
  omega

/-- The fields of an encoded command word are the ones it was made from. -/
theorem commandWord_op (op : BitVec 4) (p : BitVec 3) (n : BitVec 8) : (commandWord op p n).extractLsb' 0 4 = op := by
  apply BitVec.eq_of_toNat_eq
  simp only [BitVec.extractLsb'_toNat, commandWord_toNat, Nat.shiftRight_zero]
  omega

theorem commandWord_p (op : BitVec 4) (p : BitVec 3) (n : BitVec 8) : (commandWord op p n).extractLsb' 4 3 = p := by
  apply BitVec.eq_of_toNat_eq
  simp only [BitVec.extractLsb'_toNat, commandWord_toNat, Nat.shiftRight_eq_div_pow]
  omega

theorem commandWord_n (op : BitVec 4) (p : BitVec 3) (n : BitVec 8) : (commandWord op p n).extractLsb' 8 8 = n := by
  apply BitVec.eq_of_toNat_eq
  simp only [BitVec.extractLsb'_toNat, commandWord_toNat, Nat.shiftRight_eq_div_pow]
  omega

theorem commandWord_rsv (op : BitVec 4) (p : BitVec 3) (n : BitVec 8) : (commandWord op p n).getLsbD 7 = false := by
  simp only [BitVec.getLsbD, Nat.testBit_eq_decide_div_mod_eq, commandWord_toNat, decide_eq_false_iff_not]
  omega

/-! ### Well-formedness, as a proposition -/

theorem wellFormed_iff (i : Instr) :
    i.wellFormed = true ↔ (∀ s ∈ i.strings, s.length ≤ 32) ∧ i.bitString.length ≤ 192 := by
  simp [Instr.wellFormed]

/-! ### The decoder -/

/-- What a sequence of slot reads that succeeds has read. -/
theorem bind_eq_ok {α β ε : Type} {x : Except ε α} {f : α → Except ε β} {b : β} :
    (x >>= f) = .ok b ↔ ∃ a, x = .ok a ∧ f a = .ok b := by
  cases x <;> simp [bind, Except.bind]

theorem bare_cmd (w : BitVec 16) : (Command.bare w).cmd = w := rfl

/-- `RSV = 1` is rejected whatever stands beside it (30_encoding.md R60(b)). -/
theorem decode_of_rsv {c : Command} (h : c.rsv = true) : decode c = .error .reservedBit := by
  simp [decode, h]

/-- A slot whose length fits is taken; one whose length does not is rejected (30_encoding.md R60(c), (d)). -/
theorem take_of_le {k : Fin 4} {slot : StringSlot} (h : slot.len.toNat ≤ 32) : slot.take k = .ok slot.text :=
  take_eq_ok.2 ⟨h, rfl⟩

theorem take_of_gt {k : Fin 4} {slot : StringSlot} (h : 32 < slot.len.toNat) :
    slot.take k = .error (.stringTooLong k) :=
  take_eq_error.2 ⟨h, rfl⟩

theorem takeBits_of_le {slot : BitSlot} (h : slot.len.toNat ≤ 192) : slot.take = .ok slot.bits :=
  takeBits_eq_ok.2 ⟨h, rfl⟩

theorem takeBits_of_gt {slot : BitSlot} (h : 192 < slot.len.toNat) : slot.take = .error .bitsTooLong := by
  rw [BitSlot.take, if_neg]
  exact Nat.not_le.2 h

/-- The `OP` and `RSV` bits of a command word as a number (30_encoding.md R59). -/
theorem opcodeMask_toNat (w : BitVec 16) :
    (w &&& opcodeMask).toNat = w.toNat % 16 + 128 * (w.toNat / 128 % 2) := by
  show (w &&& 0x008F#16).toNat = _
  have e1 : w &&& 0x008F#16 = (w &&& 0xF#16) ||| (((w >>> 7) &&& 1#16) <<< 7) := by
    apply BitVec.eq_of_getLsbD_eq
    intro j hj
    interval_cases j <;> simp
  have e2 : (w &&& 0xF#16) + (((w >>> 7) &&& 1#16) <<< 7) = (w &&& 0xF#16) ||| (((w >>> 7) &&& 1#16) <<< 7) := by
    apply BitVec.add_eq_or_of_and_eq_zero
    apply BitVec.eq_of_getLsbD_eq
    intro j hj
    interval_cases j <;> simp
  have e3 : (w &&& 0xF#16).toNat = w.toNat % 16 := by
    rw [BitVec.toNat_and]
    exact Nat.and_two_pow_sub_one_eq_mod w.toNat 4
  have e4 : ((w >>> 7) &&& 1#16).toNat = w.toNat / 128 % 2 := by
    rw [BitVec.toNat_and, BitVec.toNat_ushiftRight, Nat.shiftRight_eq_div_pow]
    exact Nat.and_two_pow_sub_one_eq_mod _ 1
  rw [e1, ← e2, BitVec.toNat_add, BitVec.toNat_shiftLeft, e3, e4, Nat.shiftLeft_eq]
  omega

end Sys2Proof
end

