-- ==== Sys2Proof/Laws/Layout.lean ====
section
/-!
SUPPORT. The four tag layouts (30_encoding.md R72 to R76): 96 bits each, and their value as one number.
-/

namespace Sys2Proof.Machine

theorem layoutGid_length (mgr item ser : Str) : (layoutGid mgr item ser).length = 96 := by
  simp [layoutGid, headerGid]

theorem layoutTcin_length (item ser : Str) : (layoutTcin item ser).length = 96 := by
  simp [layoutTcin, headerTcin, filterTcin]

theorem layoutTiai_length (ref : Str) {id72 : Bits} (h : id72.length = 72) : (layoutTiai ref id72).length = 96 := by
  simp [layoutTiai, headerTiai, filterTiai, h]

/-- The seven rows, one by one: what is true of each row is true of every lookup (42_partition_table.md R121). -/
theorem partrow_mem (p : BitVec 3) : partrow p ∈ partitionTable := by
  revert p; decide

theorem partrow_bits (p : BitVec 3) : (partrow p).managerBits + (partrow p).itemBits = 44 := by
  revert p; decide

theorem partrow_digits (p : BitVec 3) : (partrow p).managerDigits + (partrow p).itemDigits = 13 := by
  revert p; decide

theorem layoutSgtin_length (p part3 : BitVec 3) (mgr item ser : Str) :
    (layoutSgtin (partrow p) part3 mgr item ser).length = 96 := by
  have := partrow_bits p
  simp [layoutSgtin, headerSgtin, filterSgtin]; omega

/-- A GID-96 tag as one number (30_encoding.md R72). -/
theorem bitsval_layoutGid (mgr item ser : Str) :
    bitsval (layoutGid mgr item ser) =
      0x35 * 2 ^ 88 + (decval mgr % 2 ^ 28) * 2 ^ 60 + (decval item % 2 ^ 24) * 2 ^ 36 + decval ser % 2 ^ 36 := by
  have h : bitsval headerGid = 0x35 := by decide
  simp only [layoutGid, bitsval_append, bitsval_dec2bin, dec2bin_length, h]
  ring

/-- An SGTIN-96 tag as one number (30_encoding.md R73). -/
theorem bitsval_layoutSgtin (r : PartitionEntry) (h44 : r.managerBits + r.itemBits = 44) (part3 : BitVec 3)
    (mgr item ser : Str) :
    bitsval (layoutSgtin r part3 mgr item ser) =
      0x30 * 2 ^ 88 + 1 * 2 ^ 85 + part3.toNat * 2 ^ 82 + (decval mgr % 2 ^ r.managerBits) * 2 ^ (38 + r.itemBits)
        + (decval item % 2 ^ r.itemBits) * 2 ^ 38 + decval ser % 2 ^ 38 := by
  have h1 : bitsval headerSgtin = 0x30 := by decide
  have h2 : bitsval filterSgtin = 1 := by decide
  have h3 : filterSgtin.length = 3 := rfl
  have h82 : (2 : ℕ) ^ r.managerBits * 2 ^ r.itemBits = 2 ^ 44 := by rw [← pow_add, h44]
  simp only [layoutSgtin, bitsval_append, bitsval_dec2bin, bitsval_regBits, dec2bin_length, regBits_length, h1, h2, h3]
  have e : ∀ x : ℕ, x * 2 ^ r.managerBits * 2 ^ r.itemBits = x * 2 ^ 44 := fun x => by rw [mul_assoc, h82]
  simp only [add_mul, e, pow_add]
  ring

/-- A TCIN-96 tag as one number (30_encoding.md R75). -/
theorem bitsval_layoutTcin (item ser : Str) :
    bitsval (layoutTcin item ser) = 0x08 * 2 ^ 88 + (decval item % 2 ^ 35) * 2 ^ 50 + decval ser % 2 ^ 50 := by
  have h1 : bitsval headerTcin = 0x08 := by decide
  have h2 : bitsval filterTcin = 0 := by decide
  have h3 : filterTcin.length = 3 := rfl
  simp only [layoutTcin, bitsval_append, bitsval_dec2bin, dec2bin_length, h1, h2, h3]
  ring

/-- A TIAI-96 tag as one number (30_encoding.md R76). -/
theorem bitsval_layoutTiai (ref : Str) {id72 : Bits} (h : id72.length = 72) :
    bitsval (layoutTiai ref id72) = 0x0A * 2 ^ 88 + (decval ref % 2 ^ 13) * 2 ^ 72 + bitsval id72 := by
  have h1 : bitsval headerTiai = 0x0A := by decide
  have h2 : bitsval filterTiai = 0 := by decide
  have h3 : filterTiai.length = 3 := rfl
  simp only [layoutTiai, bitsval_append, bitsval_dec2bin, dec2bin_length, h1, h2, h3, h]
  ring

/-! ### Headers, where a test bench reads them (30_encoding.md R71, R79) -/

theorem layoutGid_header (mgr item ser : Str) : (toReg 96 (layoutGid mgr item ser)).extractLsb' 88 8 = 0x35 := by
  rw [extractLsb'_piece [] headerGid (dec2bin 28 mgr ++ dec2bin 24 item ++ dec2bin 36 ser) 8 88
    (layoutGid_length mgr item ser) (by simp only [layoutGid, List.append_assoc, List.nil_append]) rfl (by simp)]
  decide

theorem layoutSgtin_header (p part3 : BitVec 3) (mgr item ser : Str) :
    (toReg 96 (layoutSgtin (partrow p) part3 mgr item ser)).extractLsb' 88 8 = 0x30 := by
  have := partrow_bits p
  rw [extractLsb'_piece [] headerSgtin (filterSgtin ++ regBits part3 ++ dec2bin (partrow p).managerBits mgr ++
    dec2bin (partrow p).itemBits item ++ dec2bin 38 ser) 8 88 (layoutSgtin_length p part3 mgr item ser)
    (by simp only [layoutSgtin, List.append_assoc, List.nil_append]) rfl (by simp [filterSgtin]; omega)]
  decide

theorem layoutTcin_header (item ser : Str) : (toReg 96 (layoutTcin item ser)).extractLsb' 88 8 = 0x08 := by
  rw [extractLsb'_piece [] headerTcin (filterTcin ++ dec2bin 35 item ++ dec2bin 50 ser) 8 88 (layoutTcin_length item ser)
    (by simp only [layoutTcin, List.append_assoc, List.nil_append]) rfl (by simp [filterTcin])]
  decide

theorem layoutTiai_header (ref : Str) {id72 : Bits} (h : id72.length = 72) :
    (toReg 96 (layoutTiai ref id72)).extractLsb' 88 8 = 0x0A := by
  rw [extractLsb'_piece [] headerTiai (filterTiai ++ dec2bin 13 ref ++ id72) 8 88 (layoutTiai_length ref h)
    (by simp only [layoutTiai, List.append_assoc, List.nil_append]) rfl (by simp [filterTiai, h])]
  decide

/-! ### The rows by the number `k` of item digits (42_partition_table.md R120, 45_sgtin_encoder.md R172) -/

theorem partrow_by_code (p : BitVec 3) :
    (partrow p).managerDigits = 12 - min p.toNat 6 ∧ (partrow p).itemDigits = min p.toNat 6 + 1 ∧
    (partrow p).itemBits = [4, 7, 10, 14, 17, 20, 24].getD (min p.toNat 6) 0 ∧
    (partitionBits .row p).toNat = min p.toNat 6 := by
  revert p; decide

/-! ### The check digit (40_check_digit.md R90) -/

theorem checkValue_lt (s : Str) : checkValue s < 10 := by unfold checkValue; omega

theorem digitval_checkdigit (s : Str) : digitval (checkdigit s) = checkValue s := by
  have := checkValue_lt s
  unfold checkdigit digitval
  simp; omega

theorem isdigit_checkdigit (s : Str) : isdigit (checkdigit s) = true := by
  have := checkValue_lt s
  rw [isdigit_iff, checkdigit]
  simp; omega

/-- The weighted sum, one digit at a time: the two weights change places. -/
theorem sumOdd_cons (c : Byte) (s : Str) : sumOdd (c :: s) = digitval c + sumEven s := by
  cases s <;> simp [sumOdd, sumEven, everyOther]

theorem sumEven_cons (c : Byte) (s : Str) : sumEven (c :: s) = sumOdd s := by simp [sumEven, sumOdd]

end Sys2Proof.Machine
end

