-- ==== Sys2Proof/Laws/State.lean ====
section
/-!
SUPPORT. One lemma per field per update of State, and what each shared operation on the state can do.
-/

namespace Sys2Proof.Machine

@[simp] theorem takeFault_inputs (f : CommandFault) (s : State) : (takeFault f s).inputs = s.inputs := rfl
@[simp] theorem takeFault_status (f : CommandFault) (s : State) : (takeFault f s).regs.status = f.code := rfl
@[simp] theorem takeFault_tag (f : CommandFault) (s : State) : (takeFault f s).regs.tag = 0 := rfl
@[simp] theorem takeFault_uri (f : CommandFault) (s : State) : (takeFault f s).regs.uri = [] := rfl
@[simp] theorem takeFault_auxBits (f : CommandFault) (s : State) : (takeFault f s).regs.auxBits = [] := rfl
@[simp] theorem takeFault_auxText (f : CommandFault) (s : State) : (takeFault f s).regs.auxText = [] := rfl
@[simp] theorem takeFault_prow (f : CommandFault) (s : State) : (takeFault f s).regs.prow = 0 := rfl

@[simp] theorem resetBlock_inputs (s : State) : (resetBlock s).inputs = s.inputs := rfl
@[simp] theorem resetBlock_regs (s : State) : (resetBlock s).regs = ResultRegs.cleared := rfl

@[simp] theorem presentFirst_inputs (c : Command) (s : State) :
    (presentFirst c s).inputs = PortIn.present c :: s.inputs := rfl
@[simp] theorem presentFirst_regs (c : Command) (s : State) : (presentFirst c s).regs = s.regs := rfl

@[simp] theorem tagResult_status (b : Bits) (u : Str) : (tagResult b u).status = statusOk := rfl
@[simp] theorem tagResult_tag (b : Bits) (u : Str) : (tagResult b u).tag = toReg 96 b := rfl
@[simp] theorem tagResult_uri (b : Bits) (u : Str) : (tagResult b u).uri = u := rfl
@[simp] theorem tagResult_auxBits (b : Bits) (u : Str) : (tagResult b u).auxBits = [] := rfl
@[simp] theorem tagResult_auxText (b : Bits) (u : Str) : (tagResult b u).auxText = [] := rfl
@[simp] theorem tagResult_prow (b : Bits) (u : Str) : (tagResult b u).prow = 0 := rfl

@[simp] theorem retire_ok (r : ResultRegs) (s : State) : retire (.ok r) s = .next { s with regs := r } := rfl
@[simp] theorem retire_error (f : CommandFault) (s : State) : retire (.error f) s = .next (takeFault f s) := rfl

/-- Everything `retire` can do: a next state whose registers are the result or the fault's, the inputs untouched. -/
theorem retire_next (r : CommandResult) (s t : State) (h : retire r s = .next t) :
    t.inputs = s.inputs ∧
      ((∃ regs, r = .ok regs ∧ t.regs = regs) ∨ ∃ f, r = .error f ∧ t.regs = (takeFault f s).regs) := by
  cases r with
  | ok regs => cases h; exact ⟨rfl, .inl ⟨regs, rfl, rfl⟩⟩
  | error f => cases h; exact ⟨rfl, .inr ⟨f, rfl, rfl⟩⟩

/-- `retire` always answers a next state. -/
theorem retire_completes (r : CommandResult) (s : State) : ∃ t, retire r s = .next t := by
  cases r <;> exact ⟨_, rfl⟩

@[simp] theorem require_true (f : CommandFault) : require true f = .ok () := rfl
@[simp] theorem require_false (f : CommandFault) : require false f = .error f := rfl

@[simp] theorem fetch_nil (r : ResultRegs) : fetch ⟨r, []⟩ = (.hold, ⟨r, []⟩) := rfl
@[simp] theorem fetch_cons (r : ResultRegs) (d : PortIn) (ds : List PortIn) :
    fetch ⟨r, d :: ds⟩ = (d.event, ⟨r, ds⟩) := rfl
@[simp] theorem event_present (c : Command) : (PortIn.present c).event = .command c := rfl

/-! ### What the string ports carry at each index (10_state.md R36) -/

theorem portOut_uriCh (b : Bool) (s : State) {i : Nat} (h : i < 64) :
    (s.portOut b).uriCh[i]? = some (s.regs.uri.getD i 0) := by
  simp [State.portOut, ResultRegs.uriCh, h]

theorem portOut_auxBitsB (b : Bool) (s : State) {i : Nat} (h : i < 255) :
    (s.portOut b).auxBitsB[i]? = some (s.regs.auxBits.getD i false) := by
  simp [State.portOut, ResultRegs.auxBit, h]

theorem portOut_auxTextCh (b : Bool) (s : State) {i : Nat} (h : i < 255) :
    (s.portOut b).auxTextCh[i]? = some (s.regs.auxText.getD i 0) := by
  simp [State.portOut, ResultRegs.auxCh, h]

end Sys2Proof.Machine
end

