-- ==== Sys2Proof/Laws/Exec.lean ====
section
/-!
SUPPORT. What each command answers, said once: its result on valid operands and its fault otherwise; and that a
command's next state is its result retired, whatever the registers held (10_state.md R27, R31).
-/

namespace Sys2Proof.Machine

/-- What a command computes, the state left out. -/
def commandResult : Instr → CommandResult
  | .gidDpci department cls item serial => gidDpci department cls item serial
  | .gidGtin gtin serial => gidGtin gtin serial
  | .sgtin gtin serial partition => sgtin block gtin serial partition
  | .tcin item serial => tcin item serial
  | .tiaiD reference assetId => tiaiD block reference assetId
  | .tiaiC reference assetId => tiaiC block reference assetId
  | .tiaiH reference assetId => tiaiH block reference assetId
  | .chkdig digits => chkdig digits
  | .enc6 text minBits => enc6 block text minBits
  | .dec6 bits minChars => dec6 block bits minChars
  | .partq partition => partq partition

/-- A command's next state is its result retired. -/
theorem exec_eq_retire (i : Instr) (s : State) : exec i s = retire (commandResult i) s := by
  cases i <;> rfl

/-- A command always answers a next state and takes no input. -/
theorem exec_completes (i : Instr) (s : State) : ∃ t, exec i s = .next t ∧ t.inputs = s.inputs := by
  rw [exec_eq_retire]
  cases commandResult i <;> exact ⟨_, rfl, rfl⟩

/-- The registers after a command do not depend on the state it ran in. -/
theorem exec_regs_indep {i : Instr} {s t : State} (h : exec i s = .next t) (s' : State) :
    exec i s' = .next ⟨t.regs, s'.inputs⟩ := by
  rw [exec_eq_retire] at h ⊢
  cases hr : commandResult i with
  | ok r => rw [hr] at h; cases h; rfl
  | error f => rw [hr] at h; cases h; rfl

/-- The next state of a command as an equation between its result and the registers. -/
theorem exec_next_iff (i : Instr) (s t : State) :
    exec i s = .next t ↔ (∃ r, commandResult i = .ok r ∧ t = ⟨r, s.inputs⟩) ∨
      ∃ f, commandResult i = .error f ∧ t = takeFault f s := by
  rw [exec_eq_retire]
  constructor
  · intro h
    cases hr : commandResult i with
    | ok r => rw [hr] at h; cases h; exact .inl ⟨r, rfl, rfl⟩
    | error f => rw [hr] at h; cases h; exact .inr ⟨f, rfl, rfl⟩
  · rintro (⟨r, hr, rfl⟩ | ⟨f, hr, rfl⟩) <;> rw [hr] <;> rfl

/-! ### Tag commands on valid operands, and their faults -/

theorem gidDpci_ok {d c i s : Str} (hd : alldigits d = true) (hc : alldigits c = true) (hi : alldigits i = true)
    (hs : alldigits s = true) :
    gidDpci d c i s =
      let mgr := ascii "049" ++ lpad0 (head d 3) 3 ++ lpad0 (head c 2) 2
      let itm := ascii "00" ++ lpad0 (head i 4) 4 ++
        [checkdigit (ascii "49" ++ lpad0 (head d 3) 3 ++ lpad0 (head c 2) 2 ++ lpad0 (head i 4) 4)]
      .ok (tagResult (layoutGid mgr itm (head s 10)) (renderGid mgr itm (head s 10))) := by
  simp only [gidDpci, hd, hc, hi, hs]
  rfl

theorem gidDpci_error {d c i s : Str} (h : ¬ (alldigits d = true ∧ alldigits c = true ∧ alldigits i = true ∧
    alldigits s = true)) : gidDpci d c i s = .error .invalidInput := by
  unfold gidDpci
  cases hd : alldigits d
  · rfl
  cases hc : alldigits c
  · rfl
  cases hi : alldigits i
  · rfl
  cases hs : alldigits s
  · rfl
  exact absurd ⟨hd, hc, hi, hs⟩ h

theorem gidGtin_ok {g s : Str} (hg : alldigits g = true) (hs : alldigits s = true) :
    gidGtin g s =
      let mgr := substr (gtin14 g) 0 8
      let itm := lpad0 (substr (gtin14 g) 8 14) 7
      .ok (tagResult (layoutGid mgr itm (lpad0 (head s 10) 10)) (renderGid mgr itm (head s 10))) := by
  simp only [gidGtin, hg, hs]
  rfl

theorem gidGtin_error {g s : Str} (h : ¬ (alldigits g = true ∧ alldigits s = true)) :
    gidGtin g s = .error .invalidInput := by
  unfold gidGtin
  cases hg : alldigits g
  · rfl
  cases hs : alldigits s
  · rfl
  exact absurd ⟨hg, hs⟩ h

theorem sgtin_ok (params : Params) {g s : Str} (p : BitVec 3) (hg : alldigits g = true) (hs : alldigits s = true) :
    sgtin params g s p =
      let mgr := sgtinManager (partrow p) (gtin14 g)
      let itm := sgtinItem (partrow p) (gtin14 g)
      .ok (tagResult (layoutSgtin (partrow p) (partitionBits params.sgtinElseEmit p) mgr itm (head s 11))
        (renderSgtin mgr itm (head s 11))) := by
  simp only [sgtin, hg, hs]
  rfl

theorem sgtin_error (params : Params) {g s : Str} (p : BitVec 3) (h : ¬ (alldigits g = true ∧ alldigits s = true)) :
    sgtin params g s p = .error .invalidInput := by
  unfold sgtin
  cases hg : alldigits g
  · rfl
  cases hs : alldigits s
  · rfl
  exact absurd ⟨hg, hs⟩ h

theorem tcin_ok {i s : Str} (hi : alldigits i = true) (hs : alldigits s = true) :
    tcin i s = .ok (tagResult (layoutTcin (lpad0 (head i 10) 10) (head s 15))
      (renderTcin (lpad0 (head i 10) 10) (head s 15))) := by
  simp only [tcin, hi, hs]
  rfl

theorem tcin_error {i s : Str} (h : ¬ (alldigits i = true ∧ alldigits s = true)) :
    tcin i s = .error .invalidInput := by
  unfold tcin
  cases hi : alldigits i
  · rfl
  cases hs : alldigits s
  · rfl
  exact absurd ⟨hi, hs⟩ h

theorem tiaiD_ok (params : Params) {r a : Str} (hr : alldigits r = true) (ha : alldigits a = true) :
    tiaiD params r a = .ok (packTiai params r (dec2bin 72 (head a 21)) (strip0 (head a 21))) := by
  simp only [tiaiD, hr, ha]
  rfl

theorem tiaiD_error (params : Params) {r a : Str} (h : ¬ (alldigits r = true ∧ alldigits a = true)) :
    tiaiD params r a = .error .invalidInput := by
  unfold tiaiD
  cases hr : alldigits r
  · rfl
  cases ha : alldigits a
  · rfl
  exact absurd ⟨hr, ha⟩ h

theorem tiaiH_ok (params : Params) {r a : Str} (hr : alldigits r = true) (ha : allhex a = true) :
    tiaiH params r a = .ok (packTiai params r (hex2bin 72 (head a 18)) (strip0 (head a 18))) := by
  simp only [tiaiH, hr, ha]
  rfl

theorem tiaiH_error (params : Params) {r a : Str} (h : ¬ (alldigits r = true ∧ allhex a = true)) :
    tiaiH params r a = .error .invalidInput := by
  unfold tiaiH
  cases hr : alldigits r
  · rfl
  cases ha : allhex a
  · rfl
  exact absurd ⟨hr, ha⟩ h

theorem all_head {q : Byte → Bool} {a : Str} (h : a.all q = true) (n : Nat) : (head a n).all q = true := by
  simp only [List.all_eq_true] at h ⊢
  exact fun c hc => h c (List.mem_of_mem_take hc)

/-- The 72 bits that stand for a text of at most 12 characters: zeros, then its codes (47_tiai_encoders.md R197). -/
def charField (table : SixbitTable) (a : Str) : Bits :=
  List.replicate (72 - 6 * a.length) false ++ (upper a).flatMap (codeBits table)

theorem charField_length (table : SixbitTable) {a : Str} (h : a.length ≤ 12) : (charField table a).length = 72 := by
  simp only [charField, List.length_append, List.length_replicate, body_length, upper_length]
  omega

theorem tiaiC_ok (params : Params) {r a : Str} (hr : alldigits r = true)
    (ha : a.all (supported params.sixbitTable) = true) :
    tiaiC params r a = .ok (packTiai params r (charField params.sixbitTable (head a 12)) (head a 12)) := by
  have hl : (head a 12).length ≤ 12 := by simp
  have hb := sixbitEncode_ok (all_head ha 12) 72
  have hf := fitbits_of_length (charField_length params.sixbitTable hl)
  rw [charField] at hf
  simp only [tiaiC, hr, ha, hb, charField]
  exact congrArg (fun b => Except.ok (packTiai params r b (head a 12))) hf

theorem tiaiC_badReference (params : Params) {r a : Str} (hr : alldigits r = false) :
    tiaiC params r a = .error .invalidInput := by
  simp only [tiaiC, hr]
  rfl

theorem tiaiC_badText (params : Params) {r a : Str} (hr : alldigits r = true)
    (ha : a.all (supported params.sixbitTable) = false) : tiaiC params r a = .error .unsupportedCharacter := by
  simp only [tiaiC, hr, ha]
  rfl

/-! ### Helper commands -/

theorem chkdig_ok {d : Str} (h : alldigits d = true) :
    chkdig d = .ok { ResultRegs.cleared with status := statusOk, auxText := [checkdigit d] } := by
  simp only [chkdig, h]
  rfl

theorem chkdig_error {d : Str} (h : alldigits d = false) : chkdig d = .error .invalidInput := by
  simp only [chkdig, h]
  rfl

theorem enc6_ok (params : Params) {text : Str} (n : BitVec 8) (h : text.all (supported params.sixbitTable) = true) :
    enc6 params text n = .ok { ResultRegs.cleared with
      status := statusOk,
      auxBits := List.replicate (n.toNat - 6 * text.length) false ++
        (upper text).flatMap (codeBits params.sixbitTable) } := by
  simp only [enc6, sixbitEncode_ok h]
  rfl

theorem enc6_error (params : Params) {text : Str} (n : BitVec 8) (h : text.all (supported params.sixbitTable) = false) :
    enc6 params text n = .error .unsupportedCharacter := by
  simp only [enc6, sixbitEncode_error h]
  rfl

theorem dec6_ok (params : Params) {bits : Bits} {out : Str} (n : BitVec 8) (h6 : bits.length % 6 = 0)
    (h : decodeGroups params.sixbitTable (groups6 bits) = .ok out) :
    dec6 params bits n =
      .ok { ResultRegs.cleared with status := statusOk, auxText := lpad0 out n.toNat } := by
  simp only [dec6, sixbitDecode_ok h6 h]
  rfl

theorem dec6_error (params : Params) {bits : Bits} (n : BitVec 8)
    (h : sixbitDecode params.sixbitTable bits n.toNat = .error .invalidBitGroup) :
    dec6 params bits n = .error .invalidBitGroup := by
  simp only [dec6, h]
  rfl

/-! ### Everything a command can answer -/

theorem gidDpci_cases (d c i s : Str) :
    (alldigits d = true ∧ alldigits c = true ∧ alldigits i = true ∧ alldigits s = true) ∨
      gidDpci d c i s = .error .invalidInput :=
  (em _).imp_right gidDpci_error

theorem gidGtin_cases (g s : Str) :
    (alldigits g = true ∧ alldigits s = true) ∨ gidGtin g s = .error .invalidInput :=
  (em _).imp_right gidGtin_error

theorem sgtin_cases (params : Params) (g s : Str) (p : BitVec 3) :
    (alldigits g = true ∧ alldigits s = true) ∨ sgtin params g s p = .error .invalidInput :=
  (em _).imp_right (sgtin_error params p)

theorem tcin_cases (i s : Str) :
    (alldigits i = true ∧ alldigits s = true) ∨ tcin i s = .error .invalidInput :=
  (em _).imp_right tcin_error

theorem tiaiD_cases (params : Params) (r a : Str) :
    (alldigits r = true ∧ alldigits a = true) ∨ tiaiD params r a = .error .invalidInput :=
  (em _).imp_right (tiaiD_error params)

theorem tiaiH_cases (params : Params) (r a : Str) :
    (alldigits r = true ∧ allhex a = true) ∨ tiaiH params r a = .error .invalidInput :=
  (em _).imp_right (tiaiH_error params)

theorem tiaiC_cases (params : Params) (r a : Str) :
    (alldigits r = true ∧ a.all (supported params.sixbitTable) = true) ∨
    (alldigits r = false ∧ tiaiC params r a = .error .invalidInput) ∨
    (alldigits r = true ∧ a.all (supported params.sixbitTable) = false ∧
      tiaiC params r a = .error .unsupportedCharacter) := by
  cases hr : alldigits r with
  | false => exact .inr (.inl ⟨rfl, tiaiC_badReference params hr⟩)
  | true =>
    cases ha : a.all (supported params.sixbitTable) with
    | true => exact .inl ⟨rfl, rfl⟩
    | false => exact .inr (.inr ⟨rfl, rfl, tiaiC_badText params hr ha⟩)

theorem dec6_cases (params : Params) (bits : Bits) (n : BitVec 8) :
    (dec6 params bits n = .error .invalidBitGroup ∧
      (bits.length % 6 ≠ 0 ∨ ∃ g ∈ groups6 bits, g ≠ 0 ∧ ∀ row ∈ params.sixbitTable, row.2 ≠ g)) ∨
    ∃ out, bits.length % 6 = 0 ∧ decodeGroups params.sixbitTable (groups6 bits) = .ok out ∧
      dec6 params bits n = .ok { ResultRegs.cleared with status := statusOk, auxText := lpad0 out n.toNat } := by
  rcases sixbitDecode_cases params.sixbitTable bits n.toNat with ⟨h, hw⟩ | ⟨out, h6, hg, -⟩
  · exact .inl ⟨dec6_error params n h, hw⟩
  · exact .inr ⟨out, h6, hg, dec6_ok params n h6 hg⟩

/-- A completed command's registers: `STATUS = OK` and exactly one kind of result (10_state.md R31). -/
theorem commandResult_ok {i : Instr} {r : ResultRegs} (h : commandResult i = .ok r) :
    (∃ tag uri, r = tagResult tag uri) ∨
    (∃ b, r = { ResultRegs.cleared with status := statusOk, auxBits := b }) ∨
    (∃ t, r = { ResultRegs.cleared with status := statusOk, auxText := t }) ∨
    ∃ p, r = { ResultRegs.cleared with status := statusOk, prow := p } := by
  cases i with
  | gidDpci d c i s =>
    rcases gidDpci_cases d c i s with ⟨hd, hc, hi, hs⟩ | he
    · exact .inl ⟨_, _, (Except.ok.inj ((gidDpci_ok hd hc hi hs).symm.trans h)).symm⟩
    · cases he.symm.trans h
  | gidGtin g s =>
    rcases gidGtin_cases g s with ⟨hg, hs⟩ | he
    · exact .inl ⟨_, _, (Except.ok.inj ((gidGtin_ok hg hs).symm.trans h)).symm⟩
    · cases he.symm.trans h
  | sgtin g s p =>
    rcases sgtin_cases block g s p with ⟨hg, hs⟩ | he
    · exact .inl ⟨_, _, (Except.ok.inj ((sgtin_ok block p hg hs).symm.trans h)).symm⟩
    · cases he.symm.trans h
  | tcin i s =>
    rcases tcin_cases i s with ⟨hi, hs⟩ | he
    · exact .inl ⟨_, _, (Except.ok.inj ((tcin_ok hi hs).symm.trans h)).symm⟩
    · cases he.symm.trans h
  | tiaiD r a =>
    rcases tiaiD_cases block r a with ⟨hr, ha⟩ | he
    · exact .inl ⟨_, _, (Except.ok.inj ((tiaiD_ok block hr ha).symm.trans h)).symm⟩
    · cases he.symm.trans h
  | tiaiC r a =>
    rcases tiaiC_cases block r a with ⟨hr, ha⟩ | ⟨-, he⟩ | ⟨-, -, he⟩
    · exact .inl ⟨_, _, (Except.ok.inj ((tiaiC_ok block hr ha).symm.trans h)).symm⟩
    · cases he.symm.trans h
    · cases he.symm.trans h
  | tiaiH r a =>
    rcases tiaiH_cases block r a with ⟨hr, ha⟩ | he
    · exact .inl ⟨_, _, (Except.ok.inj ((tiaiH_ok block hr ha).symm.trans h)).symm⟩
    · cases he.symm.trans h
  | chkdig d =>
    cases hd : alldigits d with
    | true => exact .inr (.inr (.inl ⟨_, (Except.ok.inj ((chkdig_ok hd).symm.trans h)).symm⟩))
    | false => cases (chkdig_error hd).symm.trans h
  | enc6 t n =>
    cases ht : t.all (supported block.sixbitTable) with
    | true => exact .inr (.inl ⟨_, (Except.ok.inj ((enc6_ok block n ht).symm.trans h)).symm⟩)
    | false => cases (enc6_error block n ht).symm.trans h
  | dec6 b n =>
    rcases dec6_cases block b n with ⟨he, -⟩ | ⟨out, -, -, ho⟩
    · cases he.symm.trans h
    · exact .inr (.inr (.inl ⟨_, (Except.ok.inj (ho.symm.trans h)).symm⟩))
  | partq p => exact .inr (.inr (.inr ⟨_, (Except.ok.inj h).symm⟩))

/-- A completed command shows `STATUS = OK`. -/
theorem commandResult_status {i : Instr} {r : ResultRegs} (h : commandResult i = .ok r) : r.status = statusOk := by
  rcases commandResult_ok h with ⟨_, _, rfl⟩ | ⟨_, rfl⟩ | ⟨_, rfl⟩ | ⟨_, rfl⟩ <;> rfl

/-- No decoded command raises `IllegalCommand` (60_exceptions.md R217). -/
theorem commandResult_error {i : Instr} {f : CommandFault} (h : commandResult i = .error f) :
    f ≠ .illegalCommand := by
  rintro rfl
  cases i with
  | gidDpci d c i s =>
    rcases gidDpci_cases d c i s with ⟨hd, hc, hi, hs⟩ | he
    · cases (gidDpci_ok hd hc hi hs).symm.trans h
    · cases he.symm.trans h
  | gidGtin g s =>
    rcases gidGtin_cases g s with ⟨hg, hs⟩ | he
    · cases (gidGtin_ok hg hs).symm.trans h
    · cases he.symm.trans h
  | sgtin g s p =>
    rcases sgtin_cases block g s p with ⟨hg, hs⟩ | he
    · cases (sgtin_ok block p hg hs).symm.trans h
    · cases he.symm.trans h
  | tcin i s =>
    rcases tcin_cases i s with ⟨hi, hs⟩ | he
    · cases (tcin_ok hi hs).symm.trans h
    · cases he.symm.trans h
  | tiaiD r a =>
    rcases tiaiD_cases block r a with ⟨hr, ha⟩ | he
    · cases (tiaiD_ok block hr ha).symm.trans h
    · cases he.symm.trans h
  | tiaiC r a =>
    rcases tiaiC_cases block r a with ⟨hr, ha⟩ | ⟨-, he⟩ | ⟨-, -, he⟩
    · cases (tiaiC_ok block hr ha).symm.trans h
    · cases he.symm.trans h
    · cases he.symm.trans h
  | tiaiH r a =>
    rcases tiaiH_cases block r a with ⟨hr, ha⟩ | he
    · cases (tiaiH_ok block hr ha).symm.trans h
    · cases he.symm.trans h
  | chkdig d =>
    cases hd : alldigits d with
    | true => cases (chkdig_ok hd).symm.trans h
    | false => cases (chkdig_error hd).symm.trans h
  | enc6 t n =>
    cases ht : t.all (supported block.sixbitTable) with
    | true => cases (enc6_ok block n ht).symm.trans h
    | false => cases (enc6_error block n ht).symm.trans h
  | dec6 b n =>
    rcases dec6_cases block b n with ⟨he, -⟩ | ⟨out, -, -, ho⟩
    · cases he.symm.trans h
    · cases ho.symm.trans h
  | partq p => cases h

/-! ### The value of a TIAI tag and its URI -/

theorem packTiai_eq (params : Params) (r : Str) (id72 : Bits) (idc : Str) :
    packTiai params r id72 idc =
      tagResult (layoutTiai (tail r 3) id72) (params.tiaiUriPrefix ++ strip0 (tail r 3) ++ [chDot] ++ idc) := rfl

/-! ### The step, by what the next sample asks -/

theorem step_of_command {s : State} {d : PortIn} {rest : List PortIn} {c : Command} (h : s.inputs = d :: rest)
    (hd : d.event = .command c) :
    step s = match decode c with
      | .ok i => exec i ⟨s.regs, rest⟩
      | .error _ => .next (takeFault .illegalCommand ⟨s.regs, rest⟩) := by
  obtain ⟨r, ins⟩ := s
  cases h
  cases hc : decode c <;> simp only [step, fetch_cons, hd, hc]

theorem step_of_reset {s : State} {d : PortIn} {rest : List PortIn} (h : s.inputs = d :: rest) (hd : d.event = .reset) :
    step s = .next ⟨ResultRegs.cleared, rest⟩ := by
  obtain ⟨r, ins⟩ := s
  cases h
  simp only [step, fetch_cons, hd]
  rfl

theorem step_of_hold {s : State} {d : PortIn} {rest : List PortIn} (h : s.inputs = d :: rest) (hd : d.event = .hold) :
    step s = .next ⟨s.regs, rest⟩ := by
  obtain ⟨r, ins⟩ := s
  cases h
  simp only [step, fetch_cons, hd]

theorem step_idle (r : ResultRegs) : step ⟨r, []⟩ = .next ⟨r, []⟩ := rfl

/-- Everything a step can do. -/
theorem step_cases (s : State) :
    (s.inputs = [] ∧ step s = .next s) ∨
    ∃ d rest, s.inputs = d :: rest ∧
      ((d.event = .hold ∧ step s = .next ⟨s.regs, rest⟩) ∨
       (d.event = .reset ∧ step s = .next ⟨ResultRegs.cleared, rest⟩) ∨
       (∃ c e, d.event = .command c ∧ decode c = .error e ∧
          step s = .next (takeFault .illegalCommand ⟨s.regs, rest⟩)) ∨
       (∃ c i, d.event = .command c ∧ decode c = .ok i ∧ step s = exec i ⟨s.regs, rest⟩)) := by
  cases hi : s.inputs with
  | nil => obtain ⟨r, ins⟩ := s; cases hi; exact .inl ⟨rfl, rfl⟩
  | cons d rest =>
    refine .inr ⟨d, rest, rfl, ?_⟩
    cases hd : d.event with
    | hold => exact .inl ⟨rfl, step_of_hold hi hd⟩
    | reset => exact .inr (.inl ⟨rfl, step_of_reset hi hd⟩)
    | command c =>
      have hs := step_of_command hi hd
      cases hc : decode c with
      | error e => exact .inr (.inr (.inl ⟨c, e, rfl, hc, by rw [hs, hc]⟩))
      | ok i => exact .inr (.inr (.inr ⟨c, i, rfl, hc, by rw [hs, hc]⟩))

/-- A step always answers a next state and takes one sample. -/
theorem step_completes (s : State) : ∃ t, step s = .next t ∧ t.inputs = s.inputs.tail := by
  rcases step_cases s with ⟨hi, h⟩ | ⟨d, rest, hi, ⟨-, h⟩ | ⟨-, h⟩ | ⟨c, e, -, -, h⟩ | ⟨c, i, -, -, h⟩⟩
  · exact ⟨s, h, by simp [hi]⟩
  · exact ⟨_, h, by simp [hi]⟩
  · exact ⟨_, h, by simp [hi]⟩
  · exact ⟨_, h, by simp [hi]⟩
  · obtain ⟨t, ht, hti⟩ := exec_completes i ⟨s.regs, rest⟩
    exact ⟨t, h.trans ht, by simp [hti, hi]⟩

/-! ### Runs -/

theorem core_run_next (M : Host.Core) (n : Nat) {s t : M.State} (h : M.step s = .next t) :
    M.run (n + 1) s = M.run n t := by
  simp only [Host.Core.run, h]

/-- A run is the host's run of the same machine. -/
theorem steps_eq_run (n : Nat) (s : State) : steps n s = Host.Core.run Sys2Proof.core n s := by
  induction n generalizing s with
  | zero => rfl
  | succ n ih =>
    obtain ⟨t, ht, -⟩ := step_completes s
    rw [steps, ht]
    exact (ih t).trans (core_run_next Sys2Proof.core n ht).symm

/-- A run goes on from where a shorter one ended. -/
theorem steps_add {m : Nat} {s t : State} (h : steps m s = .next t) (n : Nat) : steps (m + n) s = steps n t := by
  induction m generalizing s with
  | zero => cases h; rw [Nat.zero_add]
  | succ m ih =>
    rw [Nat.add_right_comm, steps]
    rw [steps] at h
    cases hs : step s with
    | next u => rw [hs] at h; exact ih h
    | fault f => cases f
    | refused r => rw [hs] at h; cases h

/-- A run over a list of samples takes them all. -/
theorem steps_take (samples : List PortIn) (r : ResultRegs) (later : List PortIn) :
    ∃ r', steps samples.length ⟨r, samples ++ later⟩ = .next ⟨r', later⟩ := by
  induction samples generalizing r with
  | nil => exact ⟨r, rfl⟩
  | cons d ds ih =>
    obtain ⟨⟨r1, ins⟩, ht, hi⟩ := step_completes ⟨r, d :: ds ++ later⟩
    obtain rfl : ins = ds ++ later := hi
    obtain ⟨r', h⟩ := ih r1
    exact ⟨r', by rw [List.length_cons, steps, ht]; exact h⟩

end Sys2Proof.Machine
end

