-- ==== Sys2Proof/Laws/PerInstr.lean ====
section
/-!
SUPPORT. What is stated of every command as syntax, one lemma per constructor.
-/

/-- The encoder writes the command word of the command's own row: its `OP` and `RSV` bits are the row's `match` value
under the mask (30_encoding.md R59). -/
def Sys2Proof.Laws.OpcodeWord.Statement (i : Sys2Proof.Instr) : Prop :=
  (Sys2Proof.encode i).cmd &&& Sys2Proof.opcodeMask = i.opcodeMatch

namespace Sys2Proof.Laws.OpcodeWord

theorem commandWord_masked (op : BitVec 4) (p : BitVec 3) (n : BitVec 8) :
    Sys2Proof.commandWord op p n &&& Sys2Proof.opcodeMask = op.setWidth 16 := by
  apply BitVec.eq_of_getLsbD_eq
  intro j hj
  simp only [Sys2Proof.commandWord, Sys2Proof.opcodeMask, BitVec.getLsbD_and, BitVec.getLsbD_append,
    BitVec.getLsbD_setWidth]
  interval_cases j <;> simp

theorem gidDpci (department cls item serial : Sys2Proof.Str) : Statement (.gidDpci department cls item serial) :=
  commandWord_masked _ _ _
theorem gidGtin (gtin serial : Sys2Proof.Str) : Statement (.gidGtin gtin serial) := commandWord_masked _ _ _
theorem sgtin (gtin serial : Sys2Proof.Str) (partition : BitVec 3) : Statement (.sgtin gtin serial partition) :=
  commandWord_masked _ _ _
theorem tcin (item serial : Sys2Proof.Str) : Statement (.tcin item serial) := commandWord_masked _ _ _
theorem tiaiD (reference assetId : Sys2Proof.Str) : Statement (.tiaiD reference assetId) := commandWord_masked _ _ _
theorem tiaiC (reference assetId : Sys2Proof.Str) : Statement (.tiaiC reference assetId) := commandWord_masked _ _ _
theorem tiaiH (reference assetId : Sys2Proof.Str) : Statement (.tiaiH reference assetId) := commandWord_masked _ _ _
theorem chkdig (digits : Sys2Proof.Str) : Statement (.chkdig digits) := commandWord_masked _ _ _
theorem enc6 (text : Sys2Proof.Str) (minBits : BitVec 8) : Statement (.enc6 text minBits) := commandWord_masked _ _ _
theorem dec6 (bits : Sys2Proof.Bits) (minChars : BitVec 8) : Statement (.dec6 bits minChars) :=
  commandWord_masked _ _ _
theorem partq (partition : BitVec 3) : Statement (.partq partition) := commandWord_masked _ _ _

end Sys2Proof.Laws.OpcodeWord
end

