-- ==== Sys2Proof/Tests/Slice0.lean ====
section
/-!
SUPPORT. Small tests of one step or one word, their expected results taken from the rules and test vectors of spec/ each
names, and a witness for every statement that has hypotheses.
-/

namespace Sys2Proof.Tests

open Sys2Proof Sys2Proof.Machine Sys2Proof.Statements

/-! ### WellFormed (20_memory.md R44): each check refuses an ill-formed command, and takes the longest that fits -/

/-- A string of `n` characters `'1'`. -/
def ones (n : Nat) : Str := List.replicate n 0x31

/-- A bit string of `n` zeros. -/
def zeros (n : Nat) : Bits := List.replicate n false

theorem test_wellFormed_first_string : (Instr.chkdig (ones 33)).wellFormed = false := by decide
theorem test_wellFormed_second_string : (Instr.tiaiC (ones 3) (ones 33)).wellFormed = false := by decide
theorem test_wellFormed_fourth_string : (Instr.gidDpci [] [] [] (ones 33)).wellFormed = false := by decide
theorem test_wellFormed_bit_string : (Instr.dec6 (zeros 193) 0).wellFormed = false := by decide +kernel
theorem test_wellFormed_longest_strings :
    (Instr.gidDpci (ones 32) (ones 32) (ones 32) (ones 32)).wellFormed = true := by decide
theorem test_wellFormed_longest_bits : (Instr.dec6 (zeros 192) 255).wellFormed = true := by decide +kernel

/-- The constraints of 00_scope.md R5 on the sizes. -/
theorem test_sizes : 21 ≤ SMAX ∧ BMAX % 6 = 0 ∧ 49 ≤ URI_CAP ∧ max BMAX NMAX ≤ AUX_CAP := by decide

/-- 00_scope.md R5: an opening text that is no ASCII is not allowed. -/
theorem test_opening_text_ascii : ¬ Params.Allowed { block with tiaiUriPrefix := [0x75, 0x80] } :=
  fun h => absurd (h.2.1 0x80 (by decide)) (by decide)

/-! ### Decode: words written out from 30_encoding.md R56 (N, RSV, P, OP) and R58; characters from 00_scope.md R7 -/

/-- A string slot written out: its length and its first characters. -/
def slot (len : BitVec 6) (chars : List Byte) : StringSlot := ⟨len, fillVector 32 0 chars⟩

/-- The bit-string slot written out. -/
def bitSlot (len : BitVec 8) (bits : Bits) : BitSlot := ⟨len, fillVector 192 false bits⟩

/-- What the decoder reads, its reason dropped. -/
def read (c : Command) : Option Instr := (decode c).toOption

theorem test_word_gidDpci :
    read { Command.bare 0b00000000_0_000_0001 with
      s0 := slot 3 [0x32, 0x38, 0x31], s1 := slot 2 [0x30, 0x30], s2 := slot 4 [0x38, 0x35, 0x37, 0x30],
      s3 := slot 5 [0x31, 0x32, 0x33, 0x34, 0x35] }
      = some (.gidDpci (ascii "281") (ascii "00") (ascii "8570") (ascii "12345")) := by decide
theorem test_word_gidGtin :
    read { Command.bare 0b00000000_0_000_0010 with s0 := slot 2 [0x39, 0x38], s1 := slot 1 [0x37] }
      = some (.gidGtin (ascii "98") (ascii "7")) := by decide
theorem test_word_sgtin :
    read { Command.bare 0b00000000_0_101_0011 with s0 := slot 2 [0x39, 0x38], s1 := slot 1 [0x37] }
      = some (.sgtin (ascii "98") (ascii "7") 0b101) := by decide
theorem test_word_tcin :
    read { Command.bare 0b00000000_0_000_0100 with s0 := slot 2 [0x39, 0x38], s1 := slot 1 [0x37] }
      = some (.tcin (ascii "98") (ascii "7")) := by decide
theorem test_word_tiaiD :
    read { Command.bare 0b00000000_0_000_0101 with s0 := slot 2 [0x39, 0x38], s1 := slot 1 [0x37] }
      = some (.tiaiD (ascii "98") (ascii "7")) := by decide
theorem test_word_tiaiC :
    read { Command.bare 0b00000000_0_000_0110 with s0 := slot 2 [0x39, 0x38], s1 := slot 3 [0x41, 0x62, 0x20] }
      = some (.tiaiC (ascii "98") (ascii "Ab ")) := by decide
theorem test_word_tiaiH :
    read { Command.bare 0b00000000_0_000_0111 with s0 := slot 2 [0x39, 0x38], s1 := slot 3 [0x41, 0x62, 0x30] }
      = some (.tiaiH (ascii "98") (ascii "Ab0")) := by decide
theorem test_word_chkdig :
    read { Command.bare 0b00000000_0_000_1000 with s0 := slot 2 [0x34, 0x39] } = some (.chkdig (ascii "49")) := by decide
theorem test_word_enc6 :
    read { Command.bare 0b01001000_0_000_1001 with s0 := slot 2 [0x41, 0x42] } = some (.enc6 (ascii "AB") 72) := by decide
theorem test_word_dec6 :
    read { Command.bare 0b00000011_0_000_1010 with b0 := bitSlot 6 [true, false, false, false, true, true] }
      = some (.dec6 [true, false, false, false, true, true] 3) := by decide +kernel
theorem test_word_partq : read (Command.bare 0b00000000_0_011_1011) = some (.partq 0b011) := by decide

/-- A word of the table, every slot zero; `P` and `N` stand in it too (30_encoding.md R56). -/
theorem test_table_word : decodeTableWord 16 0xFF5B = some (.partq 0b101) ∧
    decodeTableWord 16 0x4809 = some (.enc6 [] 72) ∧ decodeTableWord 16 0x0080 = none := by decide

/-- The error a command is rejected with. -/
def rejectOf (c : Command) : Option DecodeReject :=
  match decode c with
  | .ok _ => none
  | .error e => some e

/-- Every unassigned value of `OP` is rejected: R60(a). -/
theorem test_reserved_op :
    rejectOf (Command.bare 0x0000) = some (.reservedOp 0x0) ∧ rejectOf (Command.bare 0x000C) = some (.reservedOp 0xC) ∧
    rejectOf (Command.bare 0x000D) = some (.reservedOp 0xD) ∧ rejectOf (Command.bare 0x000E) = some (.reservedOp 0xE) ∧
    rejectOf (Command.bare 0xFF7F) = some (.reservedOp 0xF) := by decide

/-- V-PART-9 and R60(b): `RSV = 1`. -/
theorem test_reserved_bit : rejectOf (Command.bare 0x00DB) = some .reservedBit := by decide

/-- R60(c) and (d): a used slot that is too long; R61: an unused one is ignored. -/
theorem test_slot_lengths :
    rejectOf { Command.bare 0x0001 with s3 := slot 33 [] } = some (.stringTooLong 3) ∧
    rejectOf { Command.bare 0x0004 with s1 := slot 63 [] } = some (.stringTooLong 1) ∧
    rejectOf { Command.bare 0x000A with b0 := bitSlot 193 [] } = some .bitsTooLong ∧
    read { Command.bare 0xFF78 with s0 := slot 1 [0x35], s1 := slot 63 [], b0 := bitSlot 255 [] }
      = some (.chkdig (ascii "5")) := by decide +kernel

/-! ### The encoder and the textual form -/

/-- The word 30_encoding.md R64 gives. -/
theorem test_encode_word : (encode (.sgtin (ascii "00043935460624") (ascii "12345") 0b101)).cmd = 0x0053 ∧
    (encode (.enc6 (ascii "AB") 72)).cmd = 0x4809 := by decide +kernel

/-- The examples of 30_encoding.md R63. -/
theorem test_text_form :
    text (.sgtin (ascii "00043935460624") (ascii "12345") 0b101) = ascii "SGTIN \"00043935460624\", \"12345\", p=101" ∧
    text (.enc6 (ascii "AB") 72) = ascii "ENC6 \"AB\", n=72" ∧
    text (.partq 0b111) = ascii "PARTQ p=111" := by decide +kernel

/-! ### One step each, on a state whose registers all hold something -/

/-- Registers that hold something everywhere. -/
def busy : ResultRegs := ⟨0x4, 0xABC, ascii "old", [true], ascii "9", 0x1FFFFF⟩

/-- A state that presents one command. -/
def presenting (i : Instr) : State := presentFirst (encode i) ⟨busy, []⟩

/-- The registers after one step. -/
def after (s : State) : Option ResultRegs :=
  match step s with
  | .next t => some t.regs
  | .fault f => nomatch f
  | .refused _ => none

/-- A tag command's result as the vectors give it: `HEX` and `URI`, everything else cleared. -/
def shows (i : Instr) (hex uri : String) : Bool :=
  match after (presenting i) with
  | some r => r.status == 0x1 && r.hex == ascii hex && r.uri == ascii uri && r.auxBits == [] && r.auxText == [] &&
      r.prow == 0
  | none => false

/-- A fault as the vectors give it. -/
def faults (i : Instr) (code : BitVec 4) : Bool := after (presenting i) == some ⟨code, 0, [], [], [], 0⟩

/-- V-DPCI-2. -/
theorem test_gidDpci_short : shows (.gidDpci (ascii "28") (ascii "0") (ascii "857") (ascii "1"))
    "3504ACF9000217D000000001" "urn:epc:tag:gid-96:04902800.0008573.1" = true := by decide +kernel

/-- V-DPCI-8: the bad character stands beyond the truncation point. -/
theorem test_gidDpci_late_fault :
    faults (.gidDpci (ascii "281") (ascii "00") (ascii "8570") (ascii "1234567890X")) 0x2 = true := by decide +kernel

/-- V-GTIN-6: the URI's serial is not padded. -/
theorem test_gidGtin_serial : shows (.gidGtin (ascii "00052175551276") (ascii "100012345"))
    "35000CBCF08696C005F61139" "urn:epc:tag:gid-96:00052175.0551276.100012345" = true := by decide +kernel

/-- V-GTIN-3: 15 digits keep their first 14, 11 their first 10. -/
theorem test_gidGtin_long : shows (.gidGtin (ascii "123456789012345") (ascii "12345678901"))
    "350BC614E0DC0720499602D2" "urn:epc:tag:gid-96:12345678.0901234.1234567890" = true := by decide +kernel

/-- V-SGTIN-5. -/
theorem test_sgtin_row101 : shows (.sgtin (ascii "12345678901234") (ascii "00012345678901") 0b101)
    "30341519385802C000BC614E" "urn:epc:tag:sgtin-96:1.0345678.090123.00012345678" = true := by decide +kernel

/-- V-SGTIN-8: partition code `111` takes the `110` row. -/
theorem test_sgtin_code111 : shows (.sgtin (ascii "00043935460624") (ascii "12345") 0b111)
    "3038044A4215438000003039" "urn:epc:tag:sgtin-96:1.004393.0546062.12345" = true := by decide +kernel

/-- V-SGTIN-9: with `SGTIN_ELSE_EMIT = ECHO` the supplied `111` is written. -/
theorem test_sgtin_echo :
    (sgtin { block with sgtinElseEmit := .echo } (ascii "00043935460624") (ascii "12345") 0b111).toOption.map
      ResultRegs.hex = some (ascii "303C044A4215438000003039") := by decide +kernel

/-- V-TCIN-4. -/
theorem test_tcin_largest : shows (.tcin (ascii "99999999991") (ascii "9999999999999999"))
    "0809502F8FFF8D7EA4C67FFF" "urn:epc:tag:tcin-96:0.9999999999.999999999999999" = true := by decide +kernel

/-- V-TCIN-3: a serial of zeros leaves a bare `.`. -/
theorem test_tcin_bare_dot : shows (.tcin (ascii "0012345678") (ascii "000"))
    "080002F18538000000000000" "urn:epc:tag:tcin-96:0.12345678." = true := by decide +kernel

/-- V-TIAI-2: the reference keeps its last 3 digits. -/
theorem test_tiaiD_largest : shows (.tiaiD (ascii "98765") (ascii "999999999999999999999"))
    "0A02FD3635C9ADC5DE9FFFFF" "urn:epc:tag:tiai-96:0.765.999999999999999999999" = true := by decide +kernel

/-- V-TIAI-25: another `TIAI_URI_PREFIX`. -/
theorem test_tiaiD_opening :
    (tiaiD { block with tiaiUriPrefix := ascii "urn:x:" } (ascii "123") (ascii "1234567890")).toOption.map
      (fun r => (r.hex, r.uri)) = some (ascii "0A007B0000000000499602D2", ascii "urn:x:123.1234567890") := by decide +kernel

/-- V-TIAI-8: lowercase packed as capitals, echoed as supplied; space packed as zeros. -/
theorem test_tiaiC_lowercase : shows (.tiaiC (ascii "045") (ascii "ab 12"))
    "0A002D000000000001080C72" "urn:epc:tag:tiai-96:0.45.ab 12" = true := by decide +kernel

/-- V-TIAI-21 and V-TIAI-22: a late bad character; the reference is checked first. -/
theorem test_tiaiC_faults : faults (.tiaiC (ascii "123") (ascii "ABCDEFGHIJKL_")) 0x3 = true ∧
    faults (.tiaiC (ascii "12X") (ascii "A_B")) 0x2 = true := by decide +kernel

/-- V-TIAI-15. -/
theorem test_tiaiH_case : shows (.tiaiH (ascii "123") (ascii "1A2b"))
    "0A007B000000000000001A2B" "urn:epc:tag:tiai-96:0.123.1A2b" = true := by decide +kernel

/-- V-TIAI-14: 20 digits keep their first 18. -/
theorem test_tiaiH_full : shows (.tiaiH (ascii "123") (ascii "FFFFFFFFFFFFFFFFFFFF"))
    "0A007BFFFFFFFFFFFFFFFFFF" "urn:epc:tag:tiai-96:0.123.FFFFFFFFFFFFFFFFFF" = true := by decide +kernel

/-- V-CHK-7 and V-CHK-8. -/
theorem test_chkdig :
    after (presenting (.chkdig (ascii "99999999999"))) = some ⟨0x1, 0, [], [], ascii "3", 0⟩ ∧
    after (presenting (.chkdig (ascii "12345678901234567890123456789012"))) = some ⟨0x1, 0, [], [], ascii "0", 0⟩ := by
  decide +kernel

/-- V-CODEC-2: lowercase folded, `#`. -/
theorem test_enc6 : after (presenting (.enc6 (ascii "ab#") 0)) = some ⟨0x1, 0, [],
    [false, false, false, false, false, true, false, false, false, false, true, false,
     true, false, false, false, true, true], [], 0⟩ := by decide +kernel

/-- V-CODEC-4: padding need not be whole groups. -/
theorem test_enc6_pad : after (presenting (.enc6 [] 7)) = some ⟨0x1, 0, [], zeros 7, [], 0⟩ := by decide +kernel

/-- V-CODEC-17: the pad character is the digit zero. -/
theorem test_dec6_pad : after (presenting (.dec6 (zeros 6 ++ [false, false, false, false, false, true,
    false, false, false, false, true, false]) 4)) = some ⟨0x1, 0, [], [], ascii "00AB", 0⟩ := by decide +kernel

/-- V-CODEC-28 and V-CODEC-29. -/
theorem test_dec6_faults : faults (.dec6 [true, false, false, false, false, false] 0) 0x4 = true ∧
    faults (.dec6 [false, false, false, false, false, true, false] 0) 0x4 = true := by decide +kernel

/-- V-PART-4 and V-PART-8. -/
theorem test_partq : after (presenting (.partq 0b011)) = some ⟨0x1, 0, [], [], [], 0x0DE974⟩ ∧
    after (presenting (.partq 0b111)) = some ⟨0x1, 0, [], [], [], 0x1946C7⟩ := by decide +kernel

/-- V-PART-9: an illegal command; 70_reset_and_hazards.md R240: reset; 10_state.md R35. -/
theorem test_illegal_and_reset :
    after (presentFirst (Command.bare 0x00DB) ⟨busy, []⟩) = some ⟨0x5, 0, [], [], [], 0⟩ ∧
    after ⟨busy, [⟨true, true, Command.bare 0x007B⟩]⟩ = some ⟨0, 0, [], [], [], 0⟩ ∧
    after ⟨busy, [⟨false, false, Command.bare 0x007B⟩]⟩ = some busy := by decide +kernel

/-- What the host reads after S5 of 95_test_vectors.md: the handshake, and zero beyond the string (10_state.md R29, R36). -/
theorem test_ports :
    let o := State.portOut false ⟨⟨0x1, 0, [], [], ascii "7", 0⟩, []⟩
    o.cmdReady = true ∧ o.rspValid = true ∧ o.auxTextLen = 1 ∧ o.auxTextCh.take 3 = [0x37, 0x00, 0x00] := by decide +kernel

/-! ### Witnesses: for each statement with hypotheses, a state and operands that meet all of them -/

/-- The commands of every kind, valid, the strings at their longest where that is allowed. -/
def samples : List Instr :=
  [.gidDpci (ones 32) (ones 32) (ones 32) (ones 32), .gidGtin (ones 32) [], .sgtin (ones 14) (ones 11) 0b111,
   .tcin (ones 10) (ones 15), .tiaiD (ones 3) (ones 21), .tiaiC (ones 3) (ones 12), .tiaiH (ones 3) (ones 18),
   .chkdig (ones 32), .enc6 (ones 32) 255, .dec6 (zeros 192) 255, .partq 0b111]

theorem witness_DecodeOfEncode : ∀ i ∈ samples, i.wellFormed = true := by decide +kernel

theorem witness_DecodedCommandFits : ∀ i ∈ samples, read (encode i) = some i := by decide +kernel

theorem witness_DecodeReadsTheTablesOperands :
    decode (encode (.sgtin (ascii "12") (ascii "3") 0b110)) = .ok (.sgtin (ascii "12") (ascii "3") 0b110) := rfl

theorem witness_EveryWordMatchesOneRowOrNone :
    read { Command.bare 0x0008 with s0 := slot 1 [0x35] } = some (.chkdig (ascii "5")) ∧
    (Instr.partq 0).opcodeMatch = (Instr.partq 7).opcodeMatch ∧ (Instr.partq 0).ctorIdx = (Instr.partq 7).ctorIdx := by
  decide

/-- The two presented commands of V-CHK-11: `P` and `N` differ, and an unused slot. -/
theorem witness_UnusedOperandsAreIgnored :
    SameUsed { Command.bare 0xFF78 with s0 := slot 1 [0x35, 0x36], s1 := slot 63 [] }
      { Command.bare 0x0008 with s0 := slot 1 [0x35] } :=
  ⟨by decide, by decide, by decide, by decide, fun _ => ⟨by decide, by decide⟩, fun h => absurd h (by decide),
    fun h => absurd h (by decide), fun h => absurd h (by decide)⟩

/-- Each case of R60, at the first length that is too long, and the longest legal ones. -/
theorem witness_IllegalCommandExactlyWhen :
    Presents (presentFirst (Command.bare 0x0000) ⟨busy, []⟩) (Command.bare 0x0000) [] ∧
    Illegal (Command.bare 0x0000) ∧ Illegal (Command.bare 0x000C) ∧ Illegal (Command.bare 0x000F) ∧
    Illegal (Command.bare 0x008B) ∧
    Illegal { Command.bare 0x0009 with s0 := slot 33 [] } ∧ Illegal { Command.bare 0x0007 with s1 := slot 33 [] } ∧
    Illegal { Command.bare 0x0001 with s2 := slot 33 [] } ∧ Illegal { Command.bare 0x0001 with s3 := slot 63 [] } ∧
    Illegal { Command.bare 0x000A with b0 := bitSlot 193 [] } :=
  ⟨rfl, .inl (by decide), .inl (by decide), .inl (by decide), .inr (.inl (by decide)),
    .inr (.inr (.inl (by decide))), .inr (.inr (.inr (.inl (by decide)))), .inr (.inr (.inr (.inr (.inl (by decide))))),
    .inr (.inr (.inr (.inr (.inl (by decide))))), .inr (.inr (.inr (.inr (.inr (by decide)))))⟩

/-- The longest operands that are legal, every unused slot too long. -/
theorem witness_IllegalCommandExactlyWhen_legal :
    ¬ Illegal { Command.bare 0x0009 with s0 := slot 32 [], s1 := slot 63 [], s2 := slot 63 [], b0 := bitSlot 255 [] } ∧
    ¬ Illegal { Command.bare 0x000A with b0 := bitSlot 192 [], s0 := slot 63 [] } := by
  constructor <;> rintro (h | h | h | h | h | h) <;> revert h <;> decide

theorem witness_StepRunsTheDecodedCommand :
    Presents (presenting (.partq 3)) (encode (.partq 3)) [] ∧ decode (encode (.partq 3)) = .ok (.partq 3) := ⟨rfl, rfl⟩

/-- Two resets in a row, the first beside a presented command. -/
theorem witness_ResetClearsEverything :
    let s : State := ⟨busy, [⟨true, true, Command.bare 0x0001⟩, ⟨true, false, Command.bare 0⟩]⟩
    s.inputs = ⟨true, true, Command.bare 0x0001⟩ :: [⟨true, false, Command.bare 0⟩] ∧
    [⟨true, false, Command.bare 0⟩] = PortIn.mk true false (Command.bare 0) :: [] := ⟨rfl, rfl⟩

theorem witness_PlacedWordRuns : decodeTableWord 16 0x0053 = some (.sgtin [] [] 5) := by decide

theorem witness_StepKeepsInv :
    State.reset.Inv ∧ step (presentFirst (encode (.partq 3)) State.reset) = .next ⟨⟨0x1, 0, [], [], [], 0x0DE974⟩, []⟩ :=
  ⟨.inl ⟨.inl rfl, rfl⟩, rfl⟩

/-- Both kinds of last event: a reset, and an accepted command. -/
theorem witness_RunShowsItsLastEventOnly :
    (PortIn.mk true false (Command.bare 0)).rst = true ∧ (PortIn.present (encode (.partq 3))).cmdValid = true := ⟨rfl, rfl⟩

/-- A command that clears `TAG`, `URI`, `AUXBITS`, `AUXTEXT`; one that clears `PROW`; and a fault. -/
theorem witness_EveryRegisterIsWritten :
    (exec (.partq 3) ⟨busy, []⟩ = .next (rowShown 0x0DE974 ⟨busy, []⟩) ∧ isTagCommand (.partq 3) = false ∧
      (∀ text n, Instr.partq 3 ≠ .enc6 text n) ∧ (∀ digits, Instr.partq 3 ≠ .chkdig digits) ∧
      ∀ bits n, Instr.partq 3 ≠ .dec6 bits n) ∧
    (exec (.chkdig []) ⟨busy, []⟩ = .next (textShown [0x30] ⟨busy, []⟩) ∧ ∀ p, Instr.chkdig [] ≠ .partq p) ∧
    (exec (.chkdig [0x41]) ⟨busy, []⟩ = .next (codeShown 0x2 ⟨busy, []⟩) ∧
      (codeShown 0x2 ⟨busy, []⟩).regs.status ≠ 0x1) := by
  refine ⟨⟨rfl, rfl, ?_, ?_, ?_⟩, ⟨rfl, ?_⟩, rfl, by decide⟩ <;> intros <;> simp

theorem witness_HandshakeAroundACommand :
    Presents (presentFirst (Command.bare 0x0000) ⟨busy, []⟩) (Command.bare 0x0000) [] := rfl

/-- States that meet the invariant with each kind of string at its longest. -/
theorem witness_StringPortsShowTheStrings :
    State.Inv ⟨{ ResultRegs.cleared with status := statusOk, auxBits := zeros 255 }, []⟩ ∧
    State.Inv ⟨{ ResultRegs.cleared with status := statusOk, auxText := ones 255 }, []⟩ ∧
    State.Inv ⟨tagResult (layoutGid [] [] []) (renderGid [] [] (ones 28)), []⟩ := by
  refine ⟨.inr (.inr (.inl ⟨by decide +kernel, rfl⟩)), .inr (.inr (.inr (.inl ⟨by decide +kernel, rfl⟩))),
    .inr (.inl ⟨⟨.gid, layoutGid_header _ _ _, ⟨[chDot] ++ [chDot] ++ ones 28, by decide⟩, ?_, ?_⟩, by decide, rfl⟩)⟩ <;> simp

/-- One command for each code. -/
theorem witness_FaultExactlyWhen :
    exec (.tiaiH [] (ascii "G")) ⟨busy, []⟩ = .next (codeShown 0x2 ⟨busy, []⟩) ∧
    exec (.enc6 (ascii "_") 0) ⟨busy, []⟩ = .next (codeShown 0x3 ⟨busy, []⟩) ∧
    exec (.dec6 (zeros 7) 0) ⟨busy, []⟩ = .next (codeShown 0x4 ⟨busy, []⟩) ∧
    exec (.dec6 [] 1) ⟨busy, []⟩ = .next (textShown [0x30] ⟨busy, []⟩) := ⟨rfl, rfl, rfl, rfl⟩

theorem witness_FaultPriority :
    Presents (presentFirst (Command.bare 0x0086) ⟨busy, []⟩) (Command.bare 0x0086) [] ∧ Illegal (Command.bare 0x0086) ∧
    alldigits (ascii "12X") = false ∧ alldigits (ascii "123") = true ∧
    ∃ c ∈ ascii "A_B", supported block.sixbitTable c = false := by
  refine ⟨rfl, .inr (.inl (by decide)), by decide, by decide, 0x5F, by decide, by decide⟩

theorem witness_FaultEntry : exec (.partq 3) ⟨busy, []⟩ = .next (rowShown 0x0DE974 ⟨busy, []⟩) := rfl

theorem witness_StringPrimitivesKeep : (ascii "0a@")[1]? = some 0x61 ∧ (ascii "z[")[0]? = some 0x7A := by decide

theorem witness_DecimalNumeralDigits : alldigits (ascii "4019") = true ∧ (ascii "4019")[0]? = some 0x34 ∧
    (ascii "4019")[3]? = some 0x39 := by decide

theorem witness_ChkdigCompletesTheWeightedSum :
    alldigits (ascii "49281008570") = true ∧ alldigits (ascii "0114910386X") = false := by decide

/-- Each clause: no padding, padding of whole groups, padding that is not, and a text the round trip keeps. -/
theorem witness_SixbitRoundTrip :
    block.sixbitTable.Allowed ∧ (ascii "a B").all (supported block.sixbitTable) = true ∧
    18 ≤ 6 * (ascii "a B").length ∧ 24 % 6 = 0 ∧ (6 * (ascii "a B").length < 19 ∧ 19 % 6 ≠ 0) ∧
    (ascii "AB").all (supported block.sixbitTable) = true ∧
    ∀ c ∈ ascii "AB", c ≠ 0x20 ∧ ¬ (0x61 ≤ c.toNat ∧ c.toNat ≤ 0x7A) := by
  refine ⟨block_allowed.1, ?_⟩
  decide

theorem witness_Enc6WritesTheCodes :
    (ascii "Az #-/09").all (supported block.sixbitTable) = true ∧ (ascii "A_B").all (supported block.sixbitTable) = false ∧
    (ascii "Az #-/09")[7]? = some 0x39 ∧ (ones 32).length ≤ SMAX := by decide

/-- Groups that are zero or codes; and a bit string that is no whole number of groups. -/
theorem witness_Dec6ReadsTheGroups :
    (∀ row ∈ [((0x20 : Byte), (0 : BitVec 6)), (0x41, 1)], row.2 = 0 ∨ row ∈ block.sixbitTable) ∧
    zeros 11 ++ [true] = [((0x20 : Byte), (0 : BitVec 6)), (0x41, 1)].flatMap (fun row => fit 6 row.2.toNat) ∧
    (zeros 11 ++ [true]).length ≤ BMAX ∧
    ¬ ∃ rows : List (Byte × BitVec 6), (∀ row ∈ rows, row.2 = 0 ∨ row ∈ block.sixbitTable) ∧
      zeros 1 = rows.flatMap (fun row => fit 6 row.2.toNat) := by
  refine ⟨?_, by decide +kernel, by decide, ?_⟩
  · intro row hrow
    rcases List.mem_cons.1 hrow with rfl | hrow
    · exact .inl rfl
    · rw [List.mem_singleton.1 hrow]
      exact .inr (by decide)
  rintro ⟨rows, -, h⟩
  have h := congrArg List.length h
  cases rows with
  | nil => simp [zeros] at h
  | cons row rows => simp [zeros] at h; omega

theorem witness_TiaiLayoutPlaces : (List.replicate 72 true).length = 72 := by decide

theorem witness_HeaderNamesTheScheme :
    exec (.chkdig []) ⟨busy, []⟩ = .next (textShown [0x30] ⟨busy, []⟩) ∧
    ∃ t, exec (.tcin [] []) ⟨busy, []⟩ = .next t ∧ t.regs.status = 0x1 := ⟨rfl, _, rfl, rfl⟩

theorem witness_GidDpciResult :
    (alldigits (ones 32) = true ∧ alldigits [] = true ∧ alldigits (ascii "0003") = true ∧ alldigits (ones 11) = true) ∧
    alldigits (ascii "85 0") = false := by decide

theorem witness_GidGtinResult :
    (alldigits (ones 15) = true ∧ alldigits (ascii "0100012345") = true) ∧ alldigits (ascii "0005217555127X") = false := by
  decide

theorem witness_SgtinResult :
    (alldigits (ascii "00043935460624") = true ∧ alldigits (ones 12) = true) ∧ alldigits (ascii "-1") = false := by decide

/-- A code of the table, and `111` for both values of `SGTIN_ELSE_EMIT`. -/
theorem witness_SgtinPartitionBits :
    (sgtin block [] [] 0b110).toOption.isSome ∧ (sgtin block [] [] 0b111).toOption.isSome ∧
    (sgtin { block with sgtinElseEmit := .echo } [] [] 0b111).toOption.isSome := by decide

theorem witness_TcinResult :
    (alldigits (ones 11) = true ∧ alldigits (ascii "000") = true) ∧ alldigits (ascii "12.5") = false := by decide

theorem witness_TiaiDResult :
    (alldigits (ascii "98765") = true ∧ alldigits (ones 22) = true) ∧ alldigits (ascii "12AB") = false := by decide

theorem witness_TiaiCResult :
    (alldigits (ascii "045") = true ∧ (ascii "ABCDEFGHIJKLMNOP").all (supported block.sixbitTable) = true) ∧
    alldigits (ascii "12X") = false ∧ (ascii "ABCDEFGHIJKL_").all (supported block.sixbitTable) = false := by decide

theorem witness_TiaiHResult :
    (alldigits (ascii "123") = true ∧ allhex (ascii "0123456789abcdefABCDEF") = true) ∧ allhex (ascii "12G4") = false := by
  decide

theorem witness_FieldValuesFit :
    alldigits (ones 32) = true ∧ isdigit 0x39 = true ∧ allhex (ascii "ffffffffffffffffffff") = true ∧
    (sixbitEncode block.sixbitTable (head (ascii "ABCDEFGHIJKLMNOP") 12) 72).toOption.isSome := by decide

/-- A completed command, and the longest opening text the spec allows. -/
theorem witness_UriLengths :
    exec (.partq 3) ⟨busy, []⟩ = .next (rowShown 0x0DE974 ⟨busy, []⟩) ∧
    Params.Allowed { block with tiaiUriPrefix := ones 39 } ∧
    (tiaiD { block with tiaiUriPrefix := ones 39 } (ones 3) (ones 21)).toOption.isSome ∧
    (tiaiC { block with tiaiUriPrefix := ones 39 } (ones 3) (ones 12)).toOption.isSome ∧
    (tiaiH { block with tiaiUriPrefix := ones 39 } (ones 3) (ones 18)).toOption.isSome :=
  ⟨rfl, ⟨block_allowed.1, by decide, by decide⟩, by decide, by decide, by decide⟩

theorem witness_GtinLeadingZerosDoNotMatter : (ascii "52175551276").length < 14 ∧ (ones 13).length < 14 := by decide

theorem witness_SgtinDropsThreeDigits :
    (ascii "04393546062").length = 11 ∧ isdigit 0x30 = true ∧ isdigit 0x39 = true := by decide

theorem witness_TiaiCPacksTheEnc6Bits :
    alldigits (ascii "1") = true ∧ (ascii "abcdefghijkl").all (supported block.sixbitTable) = true ∧
    (ascii "abcdefghijkl").length ≤ 12 := by decide

theorem witness_TiaiPrefixChangesTheUriOnly :
    (tiaiD block (ascii "123") (ascii "5")).toOption.isSome ∧ (tiaiC block (ascii "123") (ascii "A")).toOption.isSome ∧
    (tiaiH block (ascii "123") (ascii "f")).toOption.isSome := by decide

theorem witness_HexCaseDoesNotChangeTheTag : alldigits (ascii "123") = true ∧ allhex (ascii "1A2b") = true := by decide

end Sys2Proof.Tests
end

/-! Proofs of the statements on the primitives (00_scope.md R7 to R10; 20_memory.md R43). -/

namespace Sys2Proof.Machine

/-! ### Packing a bit string into a field -/

/-- The low bits of a value are the last bits of its bit string. -/
theorem bitsval_append_mod (a b : Bits) : bitsval (a ++ b) % 2 ^ b.length = bitsval b := by
  rw [bitsval_append, Nat.mul_add_mod_self_right, Nat.mod_eq_of_lt (bitsval_lt b)]

/-- Padding keeps the value, cutting keeps the low bits. -/
theorem bitsval_fitbits (n : Nat) (b : Bits) : bitsval (fitbits n b) = bitsval b % 2 ^ n := by
  unfold fitbits
  split
  case isTrue hshort =>
    have hlt : bitsval b < 2 ^ n := (bitsval_lt b).trans (Nat.pow_lt_pow_right (by omega) hshort)
    rw [bitsval_append, bitsval_zeros, Nat.zero_mul, Nat.zero_add, Nat.mod_eq_of_lt hlt]
  case isFalse hlong =>
    have hlast : (b.drop (b.length - n)).length = n := by simp; omega
    have hmod := bitsval_append_mod (b.take (b.length - n)) (b.drop (b.length - n))
    rw [List.take_append_drop, hlast] at hmod
    exact hmod.symm

theorem fitbits_eq_fit (n : Nat) (b : Bits) : fitbits n b = fit n (bitsval b) :=
  bits_ext (by simp) (by rw [bitsval_fitbits, bitsval_fit])

/-- Settles O25: `fit` by its length and its value; `fitbits`, because a bit string is determined by these two. -/
theorem fitKeepsTheLowBits : Obligations.FitKeepsTheLowBits :=
  ⟨fun n v => ⟨fit_length n v, bitsval_fit n v⟩, fitbits_eq_fit⟩

/-! ### Strings -/

/-- `upper` works character by character, and its wrapping subtraction never wraps (00_scope.md R8). -/
theorem upperChar_eq (c : Byte) :
    upperChar c = if 0x61 ≤ c.toNat ∧ c.toNat ≤ 0x7A then BitVec.ofNat 8 (c.toNat - 0x20) else c := by
  simp only [upperChar, Bool.and_eq_true, decide_eq_true_eq]
  split
  case isTrue hlower => bv_omega
  case isFalse => rfl

/-- Settles O26: `head` and `tail` are the two ends of a split of the string, `lpad0` and `strip0` differ from it by
leading zeros only, and `upper` maps each character. -/
theorem stringPrimitivesKeep : Obligations.StringPrimitivesKeep := by
  intro s n
  refine ⟨⟨s.drop n, (List.take_append_drop n s).symm, head_length s n⟩,
    ⟨s.take (s.length - n), (List.take_append_drop _ s).symm, tail_length s n⟩,
    ⟨n - s.length, rfl, lpad0_length s n⟩, exists_zeros_strip0 s, strip0_head_ne s, upper_length s, ?_⟩
  intro i c hc
  rw [upper, List.getElem?_map, hc, Option.map_some, upperChar_eq]

/-! ### Digits of a decimal numeral -/

/-- Dividing by a power of ten cuts as many digits off the end, so what is left ends in the digit before them. -/
theorem decval_div_mod {c : Byte} {after : Str} (before : Str) (hc : isdigit c = true)
    (hafter : alldigits after = true) :
    decval (before ++ c :: after) / 10 ^ after.length % 10 = digitval c := by
  have hvalue : decval (before ++ c :: after) =
      decval after + (decval before * 10 + digitval c) * 10 ^ after.length := by
    rw [decval_append, decval_cons, List.length_cons]
    ring
  rw [hvalue, Nat.add_mul_div_right _ _ (by positivity), Nat.div_eq_of_lt (decval_lt hafter), Nat.zero_add,
    Nat.mul_add_mod_self_right, Nat.mod_eq_of_lt (digitval_lt hc)]

/-- Settles O27: a digit string is split at the index asked for, and the division cuts off what stands after it. -/
theorem decimalNumeralDigits : Obligations.DecimalNumeralDigits := by
  intro s hs
  refine ⟨decval_lt hs, fun i c hi => ?_⟩
  obtain ⟨before, after, rfl, rfl⟩ : ∃ before after, s = before ++ c :: after ∧ before.length = i := by
    obtain ⟨hlt, rfl⟩ := List.getElem?_eq_some_iff.1 hi
    exact ⟨s.take i, s.drop (i + 1), by simp, by simp [hlt.le]⟩
  have hlow : (before ++ c :: after).length - 1 - before.length = after.length := by simp
  simp only [alldigits_append, alldigits_cons, Bool.and_eq_true] at hs
  obtain ⟨-, hc, hafter⟩ := hs
  rw [hlow, decval_div_mod before hc hafter]

end Sys2Proof.Machine

/-! Proofs of the statements on the state, the invariant and the output ports (10_state.md). -/

namespace Sys2Proof

/-! ### What the decoder lets through -/

theorem take_length_le {k : Fin 4} {slot : StringSlot} {s : Str} (h : slot.take k = .ok s) : s.length ≤ 32 := by
  obtain ⟨-, rfl⟩ := take_eq_ok.1 h
  exact text_length_le slot

theorem takeBits_length_le {slot : BitSlot} {b : Bits} (h : slot.take = .ok b) : b.length ≤ 192 := by
  obtain ⟨-, rfl⟩ := takeBits_eq_ok.1 h
  exact bits_length_le slot

/-- Two string slots read one after the other, the operands of most commands (30_encoding.md R58). -/
theorem takeTwo_fit {k l : Fin 4} {slot slot' : StringSlot} {f : Str → Str → Instr} {i : Instr}
    (h : (do let s ← slot.take k; let s' ← slot'.take l; return f s s' : Except DecodeReject Instr) = .ok i) :
    ∃ s s', s.length ≤ 32 ∧ s'.length ≤ 32 ∧ f s s' = i := by
  obtain ⟨s, hs, h⟩ := bind_eq_ok.1 h
  obtain ⟨s', hs', h⟩ := bind_eq_ok.1 h
  exact ⟨s, s', take_length_le hs, take_length_le hs', Except.ok.inj h⟩

/-- A decoded command fits its slots (30_encoding.md R57, R60). -/
theorem decode_wellFormed {c : Command} {i : Instr} (h : decode c = .ok i) : i.wellFormed = true := by
  rw [wellFormed_iff]
  unfold decode at h
  split at h
  · cases h
  split at h
  · obtain ⟨department, hd, h⟩ := bind_eq_ok.1 h
    obtain ⟨cls, hc, h⟩ := bind_eq_ok.1 h
    obtain ⟨item, serial, hi, hs, rfl⟩ := takeTwo_fit h
    simp [Instr.strings, Instr.bitString, take_length_le hd, take_length_le hc, hi, hs]
  iterate 6
    obtain ⟨s, s', hs, hs', rfl⟩ := takeTwo_fit h
    simp [Instr.strings, Instr.bitString, hs, hs']
  · obtain ⟨digits, hd, h⟩ := bind_eq_ok.1 h
    cases h
    simp [Instr.strings, Instr.bitString, take_length_le hd]
  · obtain ⟨text, ht, h⟩ := bind_eq_ok.1 h
    cases h
    simp [Instr.strings, Instr.bitString, take_length_le ht]
  · obtain ⟨bits, hb, h⟩ := bind_eq_ok.1 h
    cases h
    simp [Instr.strings, Instr.bitString, takeBits_length_le hb]
  · cases h
    simp [Instr.strings, Instr.bitString]
  · cases h

end Sys2Proof

namespace Sys2Proof.Machine

open Sys2Proof.Statements

/-! ### The filter and partition bits, where the invariant reads them (30_encoding.md R73 to R77) -/

theorem layoutSgtin_filter (p part3 : BitVec 3) (mgr item ser : Str) :
    (toReg 96 (layoutSgtin (partrow p) part3 mgr item ser)).extractLsb' 85 3 = 0b001 := by
  have hbits := partrow_bits p
  rw [extractLsb'_piece headerSgtin filterSgtin (regBits part3 ++ dec2bin (partrow p).managerBits mgr ++
    dec2bin (partrow p).itemBits item ++ dec2bin 38 ser) 3 85 (layoutSgtin_length p part3 mgr item ser)
    (by simp only [layoutSgtin, List.append_assoc]) rfl (by simp; omega)]
  decide

theorem layoutSgtin_partition (p part3 : BitVec 3) (mgr item ser : Str) :
    (toReg 96 (layoutSgtin (partrow p) part3 mgr item ser)).extractLsb' 82 3 = part3 := by
  have hbits := partrow_bits p
  rw [extractLsb'_piece (headerSgtin ++ filterSgtin) (regBits part3) (dec2bin (partrow p).managerBits mgr ++
    dec2bin (partrow p).itemBits item ++ dec2bin 38 ser) 3 82 (layoutSgtin_length p part3 mgr item ser)
    (by simp only [layoutSgtin, List.append_assoc]) (by simp) (by simp; omega), toReg_regBits]

theorem layoutTcin_filter (item ser : Str) : (toReg 96 (layoutTcin item ser)).extractLsb' 85 3 = 0b000 := by
  rw [extractLsb'_piece headerTcin filterTcin (dec2bin 35 item ++ dec2bin 50 ser) 3 85 (layoutTcin_length item ser)
    (by simp only [layoutTcin, List.append_assoc]) rfl (by simp)]
  decide

theorem layoutTiai_filter (ref : Str) {id72 : Bits} (h : id72.length = 72) :
    (toReg 96 (layoutTiai ref id72)).extractLsb' 85 3 = 0b000 := by
  rw [extractLsb'_piece headerTiai filterTiai (dec2bin 13 ref ++ id72) 3 85 (layoutTiai_length ref h)
    (by simp only [layoutTiai, List.append_assoc]) rfl (by simp [h])]
  decide

/-- With `SGTIN_ELSE_EMIT = ROW` the partition bits always name a row (45_sgtin_encoder.md R172, log entry 6). -/
theorem partitionBits_row_ne (p : BitVec 3) : partitionBits .row p ≠ 0b111 := by
  revert p; decide

/-! ### The lengths of the URIs (43_field_packing.md R136, R141) -/

theorem renderGid_length (mgr item ser : Str) :
    (renderGid mgr item ser).length = 21 + mgr.length + item.length + ser.length := by
  have hopen : uriGid.length = 19 := by decide
  simp [renderGid, hopen]; omega

theorem renderSgtin_length (mgr item ser : Str) :
    (renderSgtin mgr item ser).length = 25 + mgr.length + item.length + ser.length := by
  have hopen : uriSgtin.length = 23 := by decide
  simp [renderSgtin, hopen]; omega

theorem renderTcin_length_le (item ser : Str) :
    (renderTcin item ser).length ≤ 23 + item.length + ser.length := by
  have hopen : uriTcin.length = 22 := by decide
  have hitem := strip0_length_le item
  have hser := strip0_length_le ser
  simp [renderTcin, hopen]; omega

/-- Manager and item of an SGTIN hold the two leading `'0'` and the 11 digits `g[2] .. g[12]` between them. -/
theorem sgtinManager_sgtinItem_length (p : BitVec 3) (gtin : Str) :
    (sgtinManager (partrow p) (gtin14 gtin)).length + (sgtinItem (partrow p) (gtin14 gtin)).length = 13 := by
  have hdigits : 1 ≤ (partrow p).managerDigits ∧ (partrow p).managerDigits ≤ 12 := by revert p; decide
  have hzero : (ascii "0").length = 1 := by decide
  simp [sgtinManager, sgtinItem, hzero]; omega

/-! ### Tag results of legal form (43_field_packing.md R139) -/

/-- The packed serial may differ from the URI's, as in `GID.GTIN` (44_gid_encoders.md R151). -/
theorem showsTag_gid {mgr item ser : Str} (packed : Str) (h : mgr.length + item.length + ser.length ≤ 28) :
    (tagResult (layoutGid mgr item packed) (renderGid mgr item ser)).ShowsTag := by
  have hlength : (renderGid mgr item ser).length ≤ 49 := by rw [renderGid_length]; omega
  refine ⟨⟨.gid, layoutGid_header mgr item packed, ?_, nofun, nofun⟩, hlength, rfl⟩
  simp [Scheme.uriText, renderGid]

theorem showsTag_sgtin (p : BitVec 3) {mgr item ser : Str} (h : mgr.length + item.length + ser.length ≤ 24) :
    (tagResult (layoutSgtin (partrow p) (partitionBits .row p) mgr item ser) (renderSgtin mgr item ser)).ShowsTag := by
  have hlength : (renderSgtin mgr item ser).length ≤ 49 := by rw [renderSgtin_length]; omega
  refine ⟨⟨.sgtin, layoutSgtin_header p _ mgr item ser, ?_, fun _ => ⟨layoutSgtin_filter p _ mgr item ser, ?_⟩, nofun⟩,
    hlength, rfl⟩
  · simp [Scheme.uriText, renderSgtin]
  · rw [tagResult_tag, layoutSgtin_partition]
    exact partitionBits_row_ne p

theorem showsTag_tcin {item ser : Str} (h : item.length + ser.length ≤ 26) :
    (tagResult (layoutTcin item ser) (renderTcin item ser)).ShowsTag := by
  have hlength : (renderTcin item ser).length ≤ 49 := (renderTcin_length_le item ser).trans (by omega)
  refine ⟨⟨.tcin, layoutTcin_header item ser, ?_, nofun, fun _ => layoutTcin_filter item ser⟩, hlength, rfl⟩
  simp [Scheme.uriText, renderTcin]

theorem showsTag_tiai (reference : Str) {id72 : Bits} {idc : Str} (hid : id72.length = 72) (hidc : idc.length ≤ 21) :
    (packTiai block reference id72 idc).ShowsTag := by
  have hopen : block.tiaiUriPrefix.length = 22 := by decide
  have href := strip0_length_le (tail reference 3)
  have htail := tail_length reference 3
  rw [packTiai_eq]
  refine ⟨⟨.tiai, layoutTiai_header _ hid, ?_, nofun, fun _ => layoutTiai_filter _ hid⟩, ?_, rfl⟩
  · simp [Scheme.uriText]
  · simp [hopen]; omega

/-! ### What each command shows when it completes -/

theorem gidDpci_showsTag {d c i s : Str} {r : ResultRegs} (h : gidDpci d c i s = .ok r) : r.ShowsTag := by
  rcases gidDpci_cases d c i s with ⟨hd, hc, hi, hs⟩ | he
  · cases (gidDpci_ok hd hc hi hs).symm.trans h
    have h049 : (ascii "049").length = 3 := by decide
    have h00 : (ascii "00").length = 2 := by decide
    exact showsTag_gid _ (by simp [h049, h00]; omega)
  · cases he.symm.trans h

theorem gidGtin_showsTag {g s : Str} {r : ResultRegs} (h : gidGtin g s = .ok r) : r.ShowsTag := by
  rcases gidGtin_cases g s with ⟨hg, hs⟩ | he
  · cases (gidGtin_ok hg hs).symm.trans h
    exact showsTag_gid _ (by simp; omega)
  · cases he.symm.trans h

theorem sgtin_showsTag {g s : Str} {p : BitVec 3} {r : ResultRegs} (h : sgtin block g s p = .ok r) : r.ShowsTag := by
  rcases sgtin_cases block g s p with ⟨hg, hs⟩ | he
  · cases (sgtin_ok block p hg hs).symm.trans h
    have hlength := sgtinManager_sgtinItem_length p g
    exact showsTag_sgtin p (by rw [hlength, head_length]; omega)
  · cases he.symm.trans h

theorem tcin_showsTag {i s : Str} {r : ResultRegs} (h : tcin i s = .ok r) : r.ShowsTag := by
  rcases tcin_cases i s with ⟨hi, hs⟩ | he
  · cases (tcin_ok hi hs).symm.trans h
    exact showsTag_tcin (by simp; omega)
  · cases he.symm.trans h

theorem tiaiD_showsTag {r a : Str} {regs : ResultRegs} (h : tiaiD block r a = .ok regs) : regs.ShowsTag := by
  rcases tiaiD_cases block r a with ⟨hr, ha⟩ | he
  · cases (tiaiD_ok block hr ha).symm.trans h
    exact showsTag_tiai r (dec2bin_length 72 _) ((strip0_length_le _).trans (by simp))
  · cases he.symm.trans h

theorem tiaiC_showsTag {r a : Str} {regs : ResultRegs} (h : tiaiC block r a = .ok regs) : regs.ShowsTag := by
  rcases tiaiC_cases block r a with ⟨hr, ha⟩ | ⟨-, he⟩ | ⟨-, -, he⟩
  · cases (tiaiC_ok block hr ha).symm.trans h
    exact showsTag_tiai r (charField_length _ (by simp)) (by simp)
  · cases he.symm.trans h
  · cases he.symm.trans h

theorem tiaiH_showsTag {r a : Str} {regs : ResultRegs} (h : tiaiH block r a = .ok regs) : regs.ShowsTag := by
  rcases tiaiH_cases block r a with ⟨hr, ha⟩ | he
  · cases (tiaiH_ok block hr ha).symm.trans h
    exact showsTag_tiai r (hex2bin_length 72 _) ((strip0_length_le _).trans (by simp))
  · cases he.symm.trans h

theorem chkdig_result {digits : Str} {r : ResultRegs} (h : chkdig digits = .ok r) :
    r = { ResultRegs.cleared with status := statusOk, auxText := [checkdigit digits] } := by
  cases hd : alldigits digits with
  | true => exact (Except.ok.inj ((chkdig_ok hd).symm.trans h)).symm
  | false => cases (chkdig_error hd).symm.trans h

theorem enc6_result {text : Str} {n : BitVec 8} {r : ResultRegs} (h : enc6 block text n = .ok r) :
    ∃ bits : Bits, bits.length = max n.toNat (6 * text.length) ∧
      r = { ResultRegs.cleared with status := statusOk, auxBits := bits } := by
  cases ht : text.all (supported block.sixbitTable) with
  | true =>
    refine ⟨_, ?_, (Except.ok.inj ((enc6_ok block n ht).symm.trans h)).symm⟩
    simp only [List.length_append, List.length_replicate, body_length, upper_length]
    omega
  | false => cases (enc6_error block n ht).symm.trans h

theorem groups6_length_le (bits : Bits) : 6 * (groups6 bits).length ≤ bits.length := by
  induction bits using groups6.induct with
  | case1 b5 b4 b3 b2 b1 b0 rest ih => simp only [groups6, List.length_cons]; omega
  | case2 bits h => simp [(groups6_eq_nil h).2]

theorem decodeGroup_length_le {table : SixbitTable} {g : BitVec 6} {out : Str} (h : decodeGroup table g = .ok out) :
    out.length ≤ 1 := by
  unfold decodeGroup at h
  split at h
  · cases h; simp
  · split at h <;> cases h
    simp

/-- A group decodes to at most one character. -/
theorem decodeGroups_length_le {table : SixbitTable} {gs : List (BitVec 6)} {out : Str}
    (h : decodeGroups table gs = .ok out) : out.length ≤ gs.length := by
  induction gs generalizing out with
  | nil => cases h; simp
  | cons g gs ih =>
    obtain ⟨first, hfirst, h⟩ := bind_eq_ok.1 h
    obtain ⟨others, hothers, h⟩ := bind_eq_ok.1 h
    cases h
    have hone := decodeGroup_length_le hfirst
    have hrest := ih hothers
    simp only [List.length_append, List.length_cons]
    omega

theorem dec6_result {bits : Bits} {n : BitVec 8} {r : ResultRegs} (h : dec6 block bits n = .ok r) :
    ∃ text : Str, text.length ≤ max n.toNat bits.length ∧
      r = { ResultRegs.cleared with status := statusOk, auxText := text } := by
  rcases dec6_cases block bits n with ⟨he, -⟩ | ⟨out, -, hout, ho⟩
  · cases he.symm.trans h
  · refine ⟨_, ?_, (Except.ok.inj (ho.symm.trans h)).symm⟩
    have hsymbols := decodeGroups_length_le hout
    have hgroups := groups6_length_le bits
    rw [lpad0_length]
    omega

/-- A completed command shows its own kind of result and nothing else (10_state.md R31). -/
theorem commandResult_kind {i : Instr} {r : ResultRegs} (h : commandResult i = .ok r) :
    (isTagCommand i = true ∧ r.ShowsTag) ∨
    (∃ text n, i = .enc6 text n ∧ ∃ bits : Bits, bits.length = max n.toNat (6 * text.length) ∧
      r = { ResultRegs.cleared with status := statusOk, auxBits := bits }) ∨
    (∃ digits, i = .chkdig digits ∧
      r = { ResultRegs.cleared with status := statusOk, auxText := [checkdigit digits] }) ∨
    (∃ bits n, i = .dec6 bits n ∧ ∃ text : Str, text.length ≤ max n.toNat bits.length ∧
      r = { ResultRegs.cleared with status := statusOk, auxText := text }) ∨
    ∃ p, i = .partq p ∧ r = { ResultRegs.cleared with status := statusOk, prow := packRow (partrow p) } := by
  cases i with
  | gidDpci d c i s => exact .inl ⟨rfl, gidDpci_showsTag h⟩
  | gidGtin g s => exact .inl ⟨rfl, gidGtin_showsTag h⟩
  | sgtin g s p => exact .inl ⟨rfl, sgtin_showsTag h⟩
  | tcin i s => exact .inl ⟨rfl, tcin_showsTag h⟩
  | tiaiD r a => exact .inl ⟨rfl, tiaiD_showsTag h⟩
  | tiaiC r a => exact .inl ⟨rfl, tiaiC_showsTag h⟩
  | tiaiH r a => exact .inl ⟨rfl, tiaiH_showsTag h⟩
  | enc6 text n => exact .inr (.inl ⟨text, n, rfl, enc6_result h⟩)
  | chkdig digits => exact .inr (.inr (.inl ⟨digits, rfl, chkdig_result h⟩))
  | dec6 bits n => exact .inr (.inr (.inr (.inl ⟨bits, n, rfl, dec6_result h⟩)))
  | partq p => exact .inr (.inr (.inr (.inr ⟨p, rfl, (Except.ok.inj h).symm⟩)))

/-! ### The invariant -/

theorem takeFault_noResult (f : CommandFault) (s : State) : (takeFault f s).regs.NoResult :=
  ⟨.inr ⟨f, rfl⟩, rfl⟩

theorem cleared_noResult : ResultRegs.cleared.NoResult := ⟨.inl rfl, rfl⟩

/-- A command that fits its slots shows a result of legal form: its slots and the count `N` bound the helper commands'
strings (00_scope.md R5, 20_memory.md R44). -/
theorem commandResult_inv {i : Instr} {r : ResultRegs} (hfits : i.wellFormed = true) (h : commandResult i = .ok r)
    (inputs : List PortIn) : State.Inv ⟨r, inputs⟩ := by
  obtain ⟨hstrings, hbits⟩ := (wellFormed_iff i).1 hfits
  rcases commandResult_kind h with ⟨-, htag⟩ | ⟨text, n, rfl, bits, hlength, rfl⟩ | ⟨digits, rfl, rfl⟩ |
    ⟨bits, n, rfl, text, hlength, rfl⟩ | ⟨p, rfl, rfl⟩
  · exact .inr (.inl htag)
  · have htext : text.length ≤ 32 := hstrings text (by simp [Instr.strings])
    have hcap : bits.length ≤ 255 := by have hn := n.isLt; omega
    exact .inr (.inr (.inl ⟨hcap, rfl⟩))
  · exact .inr (.inr (.inr (.inl ⟨by simp, rfl⟩)))
  · have hbits : bits.length ≤ 192 := hbits
    have hcap : text.length ≤ 255 := by have hn := n.isLt; omega
    exact .inr (.inr (.inr (.inl ⟨hcap, rfl⟩)))
  · exact .inr (.inr (.inr (.inr ⟨⟨partrow p, partrow_mem p, rfl⟩, rfl⟩)))

theorem exec_inv {i : Instr} {s t : State} (hfits : i.wellFormed = true) (h : exec i s = .next t) : t.Inv := by
  rcases (exec_next_iff i s t).1 h with ⟨r, hr, rfl⟩ | ⟨f, -, rfl⟩
  · exact commandResult_inv hfits hr s.inputs
  · exact .inl (takeFault_noResult f s)

/-- Settles O15: after reset the registers show no result. -/
theorem resetMeetsInv : Obligations.ResetMeetsInv := .inl cleared_noResult

/-- Settles O16: a sample is held, resets, faults, or runs a command that fits its slots. -/
theorem stepKeepsInv : Obligations.StepKeepsInv := by
  intro s t hinv h
  rcases step_cases s with ⟨-, hs⟩ | ⟨d, rest, -, ⟨-, hs⟩ | ⟨-, hs⟩ | ⟨c, e, -, -, hs⟩ | ⟨c, i, -, hdecode, hs⟩⟩
  · cases hs.symm.trans h; exact hinv
  · cases hs.symm.trans h; exact hinv
  · cases hs.symm.trans h; exact .inl cleared_noResult
  · cases hs.symm.trans h; exact .inl (takeFault_noResult .illegalCommand _)
  · exact exec_inv (decode_wellFormed hdecode) (hs.symm.trans h)

/-! ### Every register is written -/

/-- What a completed command does not produce is cleared (10_state.md R31). -/
theorem commandResult_clears {i : Instr} {r : ResultRegs} (h : commandResult i = .ok r) :
    (isTagCommand i = false → r.tag = 0 ∧ r.uri = []) ∧
    ((∀ text n, i ≠ .enc6 text n) → r.auxBits = []) ∧
    ((∀ digits, i ≠ .chkdig digits) → (∀ bits n, i ≠ .dec6 bits n) → r.auxText = []) ∧
    ((∀ p, i ≠ .partq p) → r.prow = 0) := by
  rcases commandResult_kind h with ⟨hi, -, -, hr⟩ | ⟨text, n, rfl, bits, -, rfl⟩ | ⟨digits, rfl, rfl⟩ |
    ⟨bits, n, rfl, text, -, rfl⟩ | ⟨p, rfl, rfl⟩
  · rw [hr, hi]
    exact ⟨nofun, fun _ => rfl, fun _ _ => rfl, fun _ => rfl⟩
  · exact ⟨fun _ => ⟨rfl, rfl⟩, fun hne => absurd rfl (hne text n), fun _ _ => rfl, fun _ => rfl⟩
  · exact ⟨fun _ => ⟨rfl, rfl⟩, fun _ => rfl, fun hne _ => absurd rfl (hne digits), fun _ => rfl⟩
  · exact ⟨fun _ => ⟨rfl, rfl⟩, fun _ => rfl, fun _ hne => absurd rfl (hne bits n), fun _ => rfl⟩
  · exact ⟨fun _ => ⟨rfl, rfl⟩, fun _ => rfl, fun _ _ => rfl, fun hne => absurd rfl (hne p)⟩

/-- Settles O18: a result shows its own kind only, a fault clears everything, and neither depends on the state. -/
theorem everyRegisterIsWritten : Obligations.EveryRegisterIsWritten := by
  intro i s t h
  have hindep := exec_regs_indep h
  rcases (exec_next_iff i s t).1 h with ⟨r, hr, rfl⟩ | ⟨f, -, rfl⟩
  · obtain ⟨htag, hbits, htext, hrow⟩ := commandResult_clears hr
    exact ⟨rfl, htag, hbits, htext, hrow, fun hne => absurd (commandResult_status hr) hne, hindep⟩
  · exact ⟨rfl, fun _ => ⟨rfl, rfl⟩, fun _ => rfl, fun _ _ => rfl, fun _ => rfl, fun _ => rfl, hindep⟩

/-! ### A presented command and the handshake around it (10_state.md R36) -/

/-- Settles O8: a presented sample is an accepted command, and the decoder names the meaning the step takes. -/
theorem stepRunsTheDecodedCommand : Obligations.StepRunsTheDecodedCommand := by
  intro s c rest i hpresents hdecode
  rw [step_of_command hpresents rfl, hdecode]

theorem code_ne_idle (f : CommandFault) : f.code ≠ statusIdle := by
  cases f <;> decide

/-- A command leaves `IDLE`: it shows `OK` or a fault's code (10_state.md R23). -/
theorem exec_status_ne_idle {i : Instr} {s t : State} (h : exec i s = .next t) : t.regs.status ≠ statusIdle := by
  rcases (exec_next_iff i s t).1 h with ⟨r, hr, rfl⟩ | ⟨f, -, rfl⟩
  · rw [commandResult_status hr]; decide
  · exact code_ne_idle f

theorem step_status_ne_idle {s t : State} {c : Command} {rest : List PortIn} (hpresents : Presents s c rest)
    (h : step s = .next t) : t.regs.status ≠ statusIdle := by
  rw [step_of_command hpresents rfl] at h
  cases hdecode : decode c with
  | ok i => rw [hdecode] at h; exact exec_status_ne_idle h
  | error e => rw [hdecode] at h; cases h; exact code_ne_idle .illegalCommand

theorem portsShow_portOut (executing : Bool) (s : State) : PortsShow (s.portOut executing) s.regs where
  status := rfl
  tag := rfl
  hex := rfl
  uriLen := rfl
  uriCh := ⟨by simp [State.portOut], fun _ => portOut_uriCh executing s⟩
  auxBitsLen := rfl
  auxBitsB := ⟨by simp [State.portOut], fun _ => portOut_auxBitsB executing s⟩
  auxTextLen := rfl
  auxTextCh := ⟨by simp [State.portOut], fun _ => portOut_auxTextCh executing s⟩
  prow := rfl

theorem portOut_rspValid {s : State} (h : s.regs.status ≠ statusIdle) : (s.portOut false).rspValid = true := by
  simpa [State.portOut] using h

/-- Settles O19: both views show the registers they are taken of, and a command never leaves `STATUS` at `IDLE`. -/
theorem handshakeAroundACommand : Obligations.HandshakeAroundACommand := by
  intro s c rest hpresents
  obtain ⟨t, ht, -⟩ := step_completes s
  exact ⟨t, ht, rfl, portsShow_portOut true s, rfl, portOut_rspValid (step_status_ne_idle hpresents ht),
    portsShow_portOut false t⟩

/-! ### `HEX` (10_state.md R25) -/

theorem hexval_cons (c : Byte) (s : Str) : hexval (c :: s) = hexdigitval c * 16 ^ s.length + hexval s := by
  rw [← List.singleton_append, hexval_append]
  simp [hexval]

/-- The first nibble of a bit string of `n + 1` nibbles, and the rest. -/
theorem bin2hex_split {b : Bits} {n : Nat} (h : b.length = 4 * (n + 1)) :
    bin2hex b = hexChar (bitsval (b.take 4)) :: bin2hex (b.drop 4) ∧ (b.take 4).length = 4 ∧
      (b.drop 4).length = 4 * n := by
  have hfirst : (b.take 4).length = 4 := by simp; omega
  refine ⟨?_, hfirst, by simp; omega⟩
  conv_lhs => rw [← List.take_append_drop 4 b]
  exact bin2hex_append hfirst _

theorem bin2hex_length {b : Bits} {n : Nat} (h : b.length = 4 * n) : (bin2hex b).length = n := by
  induction n generalizing b with
  | zero => rw [List.length_eq_zero_iff.1 h]; rfl
  | succ n ih =>
    obtain ⟨hsplit, -, hrest⟩ := bin2hex_split h
    rw [hsplit, List.length_cons, ih hrest]

/-- Character `i` of the rendering is the digit of nibble `i` from the left. -/
theorem bin2hex_getElem? {b : Bits} {n i : Nat} (h : b.length = 4 * n) (hi : i < n) :
    (bin2hex b)[i]? = some (hexChar (bitsval ((b.drop (4 * i)).take 4))) := by
  induction n generalizing b i with
  | zero => omega
  | succ n ih =>
    obtain ⟨hsplit, -, hrest⟩ := bin2hex_split h
    rw [hsplit]
    cases i with
    | zero => rfl
    | succ i =>
      have hnext : 4 + 4 * i = 4 * (i + 1) := by omega
      rw [List.getElem?_cons_succ, ih hrest (by omega), List.drop_drop, hnext]

/-- Reading the rendering back gives the value of the bit string. -/
theorem hexval_bin2hex {b : Bits} {n : Nat} (h : b.length = 4 * n) : hexval (bin2hex b) = bitsval b := by
  induction n generalizing b with
  | zero => rw [List.length_eq_zero_iff.1 h]; rfl
  | succ n ih =>
    obtain ⟨hsplit, hfirst, hrest⟩ := bin2hex_split h
    have hnibble : bitsval (b.take 4) < 16 := (bitsval_lt _).trans_eq (by rw [hfirst]; rfl)
    have hpow : (16 : Nat) ^ n = 2 ^ (b.drop 4).length := by rw [hrest, pow_mul]; rfl
    rw [hsplit, hexval_cons, hexdigitval_hexChar hnibble, ih hrest, bin2hex_length hrest, hpow, ← bitsval_append,
      List.take_append_drop]

/-- Bits `lo` to `lo + w - 1` of a register are a slice of its bit string, counted from the left. -/
theorem extractLsb'_toNat_slice {n : Nat} (v : BitVec n) {k w lo : Nat} (h : k + w + lo = n) :
    (v.extractLsb' lo w).toNat = bitsval (((regBits v).drop k).take w) := by
  have hpiece : (((regBits v).drop k).take w).length = w := by simp; omega
  have hsplit : regBits v = (regBits v).take k ++ ((regBits v).drop k).take w ++ ((regBits v).drop k).drop w := by simp
  conv_lhs => rw [← toReg_regBits v]
  rw [extractLsb'_piece _ _ _ w lo (regBits_length v) hsplit hpiece (by simp; omega), toReg_toNat hpiece]

/-- The uppercase digits from ten on, counted from `'A'` (10_state.md R25). -/
theorem hexChar_eq (v : Nat) :
    hexChar v = if v < 10 then BitVec.ofNat 8 (0x30 + v) else BitVec.ofNat 8 (0x41 + (v - 10)) := by
  unfold hexChar
  split
  · rfl
  · congr 1; omega

/-- Settles O20: the bits of `TAG` are 24 nibbles, rendered one by one. -/
theorem hexRendersTag : Obligations.HexRendersTag := by
  intro r
  have hlength : (regBits r.tag).length = 4 * 24 := regBits_length r.tag
  refine ⟨bin2hex_length hlength, fun i hi => ⟨_, rfl, ?_⟩, ?_⟩
  · rw [ResultRegs.hex, bin2hex_getElem? hlength hi, hexChar_eq,
      extractLsb'_toNat_slice r.tag (k := 4 * i) (by omega)]
  · rw [ResultRegs.hex, hexval_bin2hex hlength, bitsval_regBits]

/-- Settles O10: the reset values, and `HEX` of a zero `TAG`. -/
theorem resetValues : Obligations.ResetValues :=
  ⟨rfl, by decide, rfl, rfl, fun _ => rfl, fun _ => rfl, fun _ => rfl⟩

/-! ### The string ports (10_state.md R26, R28, R29) -/

/-- The invariant keeps the string registers within their capacities (43_field_packing.md R141, 00_scope.md R5). -/
theorem inv_capacities {s : State} (h : s.Inv) :
    s.regs.uri.length ≤ 49 ∧ s.regs.auxBits.length ≤ 255 ∧ s.regs.auxText.length ≤ 255 := by
  rcases h with ⟨-, hr⟩ | ⟨-, huri, hr⟩ | ⟨hbits, hr⟩ | ⟨htext, hr⟩ | ⟨-, hr⟩
  · rw [hr]; exact ⟨Nat.zero_le _, Nat.zero_le _, Nat.zero_le _⟩
  · refine ⟨huri, ?_⟩; rw [hr]; exact ⟨Nat.zero_le _, Nat.zero_le _⟩
  · refine ⟨?_, hbits, ?_⟩ <;> rw [hr] <;> exact Nat.zero_le _
  · refine ⟨?_, ?_, htext⟩ <;> rw [hr] <;> exact Nat.zero_le _
  · rw [hr]; exact ⟨Nat.zero_le _, Nat.zero_le _, Nat.zero_le _⟩

/-- A port of `n` places shows a string that fits, then its filler. -/
theorem range_map_getD {α : Type} (l : List α) (filler : α) {n : Nat} (h : l.length ≤ n) :
    ((List.range n).map fun i => l.getD i filler) = l ++ List.replicate (n - l.length) filler := by
  refine List.ext_getElem (by simp; omega) fun i hi _ => ?_
  simp only [List.getElem_map, List.getElem_range, List.getElem_append, List.getElem_replicate]
  split
  case isTrue hin => simp [hin]
  case isFalse hout => simp [Nat.not_lt.1 hout]

/-- A length port wide enough for the capacity and its string port give the string back whole, and zero beyond. -/
theorem stringPort_shows {α : Type} (l : List α) (filler : α) {n w : Nat} (h : l.length ≤ n) (hw : n < 2 ^ w) :
    (BitVec.ofNat w l.length).toNat = l.length ∧
    ((List.range n).map fun i => l.getD i filler).take (BitVec.ofNat w l.length).toNat = l ∧
    ∀ x ∈ ((List.range n).map fun i => l.getD i filler).drop (BitVec.ofNat w l.length).toNat, x = filler := by
  have hlen : (BitVec.ofNat w l.length).toNat = l.length := by
    rw [BitVec.toNat_ofNat, Nat.mod_eq_of_lt (h.trans_lt hw)]
  rw [hlen, range_map_getD l filler h, List.take_left, List.drop_left]
  exact ⟨rfl, rfl, fun x => List.eq_of_mem_replicate⟩

/-- Settles O21: the invariant's capacities fit the ports. -/
theorem stringPortsShowTheStrings : Obligations.StringPortsShowTheStrings := by
  intro s hinv
  obtain ⟨huri, hbits, htext⟩ := inv_capacities hinv
  obtain ⟨huriLen, huriCh, huriBeyond⟩ :=
    stringPort_shows s.regs.uri 0x00 (n := 64) (w := 7) (by omega) (by decide)
  obtain ⟨hbitsLen, hbitsB, hbitsBeyond⟩ := stringPort_shows s.regs.auxBits false (w := 8) hbits (by decide)
  obtain ⟨htextLen, htextCh, htextBeyond⟩ := stringPort_shows s.regs.auxText 0x00 (w := 8) htext (by decide)
  exact ⟨huriLen, huriCh, huriBeyond, hbitsLen, hbitsB, hbitsBeyond, htextLen, htextCh, htextBeyond⟩

end Sys2Proof.Machine

/-! Proofs of the statements on the encoding and the tag layouts (30_encoding.md). -/

namespace Sys2Proof

open Sys2Proof.Statements

/-! ### Legal commands (30_encoding.md R60) -/

/-- The command `OP` selects, with the operands the table gives it, whatever the lengths of its slots (R58, R59). -/
def selectedInstr (c : Command) : Option Instr :=
  match opOf c with
  | 0x1 => some (.gidDpci c.s0.text c.s1.text c.s2.text c.s3.text)
  | 0x2 => some (.gidGtin c.s0.text c.s1.text)
  | 0x3 => some (.sgtin c.s0.text c.s1.text c.p)
  | 0x4 => some (.tcin c.s0.text c.s1.text)
  | 0x5 => some (.tiaiD c.s0.text c.s1.text)
  | 0x6 => some (.tiaiC c.s0.text c.s1.text)
  | 0x7 => some (.tiaiH c.s0.text c.s1.text)
  | 0x8 => some (.chkdig c.s0.text)
  | 0x9 => some (.enc6 c.s0.text c.n)
  | 0xA => some (.dec6 c.b0.bits c.n)
  | 0xB => some (.partq c.p)
  | _ => none

theorem rsv_eq_true_iff (c : Command) : c.rsv = true ↔ rsvOf c = 1 := by
  rw [rsv_eq, decide_eq_true_iff, rsvOf]

theorem rsv_eq_false_iff (c : Command) : c.rsv = false ↔ rsvOf c = 0 := by
  rw [rsv_eq, decide_eq_false_iff_not, rsvOf]
  omega

/-- A legal command has a row, `RSV = 0`, and lengths that fit in the slots its row uses. -/
theorem not_illegal_iff (c : Command) :
    ¬ Illegal c ↔ (1 ≤ opOf c ∧ opOf c ≤ 11) ∧ rsvOf c = 0 ∧ (opOf c ≤ 9 → c.s0.len.toNat ≤ 32) ∧
      (opOf c ≤ 7 → c.s1.len.toNat ≤ 32) ∧ (opOf c = 1 → c.s2.len.toNat ≤ 32 ∧ c.s3.len.toNat ≤ 32) ∧
      (opOf c = 0xA → c.b0.len.toNat ≤ 192) := by
  have hop : opOf c < 16 := Nat.mod_lt _ (by decide)
  have hrsv : rsvOf c < 2 := Nat.mod_lt _ (by decide)
  unfold Illegal
  omega

theorem takeOne_eq_ok {k : Fin 4} {slot : StringSlot} {f : Str → Instr} {i : Instr} :
    (do let s ← slot.take k; return f s : Except DecodeReject Instr) = .ok i ↔
      slot.len.toNat ≤ 32 ∧ f slot.text = i := by
  simp [bind_eq_ok, take_eq_ok, pure, Except.pure, and_assoc]

theorem takeTwo_eq_ok {k l : Fin 4} {slot slot' : StringSlot} {f : Str → Str → Instr} {i : Instr} :
    (do let s ← slot.take k; let s' ← slot'.take l; return f s s' : Except DecodeReject Instr) = .ok i ↔
      (slot.len.toNat ≤ 32 ∧ slot'.len.toNat ≤ 32) ∧ f slot.text slot'.text = i := by
  simp [bind_eq_ok, take_eq_ok, pure, Except.pure, and_assoc]

/-- The decoder accepts exactly the legal commands, and reads each as its row says. -/
theorem decode_eq_ok_iff (c : Command) (i : Instr) :
    decode c = .ok i ↔ ¬ Illegal c ∧ selectedInstr c = some i := by
  cases hrsv : c.rsv with
  | true =>
    have hillegal : Illegal c := .inr (.inl ((rsv_eq_true_iff c).1 hrsv))
    rw [decode_of_rsv hrsv]
    exact iff_of_false nofun fun h => h.1 hillegal
  | false =>
    have hrsv0 : rsvOf c = 0 := (rsv_eq_false_iff c).1 hrsv
    have hop : c.op.toNat = opOf c := op_toNat c
    rw [not_illegal_iff]
    simp only [decode, hrsv, hop, selectedInstr, Bool.false_eq_true, if_false]
    split
    case h_1 h => simp [h, hrsv0, bind_eq_ok, take_eq_ok, pure, Except.pure, and_assoc]
    iterate 6 · rename_i h; rw [takeTwo_eq_ok]; simp [h, hrsv0]
    iterate 2 · rename_i h; rw [takeOne_eq_ok]; simp [h, hrsv0]
    case h_10 h => simp [h, hrsv0, bind_eq_ok, takeBits_eq_ok, pure, Except.pure, and_assoc]
    case h_11 h => simp [h, hrsv0, pure, Except.pure]
    case h_12 h1 h2 h3 h4 h5 h6 h7 h8 h9 hA hB =>
      simp only [imp_false] at h1 h2 h3 h4 h5 h6 h7 h8 h9 hA hB
      exact iff_of_false nofun fun ⟨⟨hrow, _⟩, _⟩ => by omega

theorem decode_of_illegal {c : Command} (h : Illegal c) : ∃ e, decode c = .error e := by
  cases hd : decode c with
  | error e => exact ⟨e, rfl⟩
  | ok i => exact absurd h ((decode_eq_ok_iff c i).1 hd).1

theorem decode_of_legal {c : Command} (h : ¬ Illegal c) : ∃ i, decode c = .ok i := by
  obtain ⟨⟨hlow, hhigh⟩, -⟩ := (not_illegal_iff c).1 h
  have hselected : ∃ i, selectedInstr c = some i := by
    unfold selectedInstr
    interval_cases opOf c <;> exact ⟨_, rfl⟩
  exact hselected.imp fun i hi => (decode_eq_ok_iff c i).2 ⟨h, hi⟩

/-- Settles O2: the decoder takes an operand only from a slot whose length fits. -/
theorem decodedCommandFits : Obligations.DecodedCommandFits := fun _ _ => decode_wellFormed

/-- Settles O3: a decoded command is legal, and the one its row selects. -/
theorem decodeReadsTheTablesOperands : Obligations.DecodeReadsTheTablesOperands := by
  intro c i h
  obtain ⟨hlegal, hselected⟩ := (decode_eq_ok_iff c i).1 h
  obtain ⟨-, hrsv, -⟩ := (not_illegal_iff c).1 hlegal
  refine ⟨hrsv, ?_⟩
  unfold selectedInstr at hselected
  split at hselected <;> cases hselected
  case h_1 hop => exact ⟨hop, rfl, rfl, rfl, rfl⟩
  case h_3 hop => exact ⟨hop, rfl, rfl, p_toNat c⟩
  case h_8 hop => exact ⟨hop, rfl⟩
  case h_9 hop => exact ⟨hop, rfl, n_toNat c⟩
  case h_10 hop => exact ⟨hop, rfl, n_toNat c⟩
  case h_11 hop => exact ⟨hop, p_toNat c⟩
  all_goals exact ⟨‹opOf c = _›, rfl, rfl⟩

/-! ### The opcode map in match and mask form (30_encoding.md R59) -/

theorem opcodeMatch_range (i : Instr) : 1 ≤ i.opcodeMatch.toNat ∧ i.opcodeMatch.toNat ≤ 11 := by
  cases i <;> simp [Instr.opcodeMatch]

/-- The rows stand in the order of the constructors. -/
theorem ctorIdx_eq (i : Instr) : i.ctorIdx = i.opcodeMatch.toNat - 1 := by
  cases i <;> rfl

theorem opcodeMatch_eq_iff (c : Command) (i : Instr) :
    c.cmd &&& opcodeMask = i.opcodeMatch ↔ opOf c = i.opcodeMatch.toNat ∧ rsvOf c = 0 := by
  have hrow := opcodeMatch_range i
  rw [← BitVec.toNat_inj, opcodeMask_toNat, opOf, rsvOf]
  omega

theorem selectedInstr_row {c : Command} {i : Instr} (h : selectedInstr c = some i) :
    opOf c = i.opcodeMatch.toNat := by
  unfold selectedInstr at h
  split at h <;> cases h <;> assumption

/-- A decoded command's word matches its own row. -/
theorem decode_row {c : Command} {i : Instr} (h : decode c = .ok i) : c.cmd &&& opcodeMask = i.opcodeMatch := by
  obtain ⟨hlegal, hselected⟩ := (decode_eq_ok_iff c i).1 h
  obtain ⟨-, hrsv, -⟩ := (not_illegal_iff c).1 hlegal
  exact (opcodeMatch_eq_iff c i).2 ⟨selectedInstr_row hselected, hrsv⟩

/-- A command word of some row makes a legal command when every slot's length fits. -/
theorem legal_of_row {c : Command} {i : Instr} (h : c.cmd &&& opcodeMask = i.opcodeMatch)
    (h0 : c.s0.len.toNat ≤ 32) (h1 : c.s1.len.toNat ≤ 32) (h2 : c.s2.len.toNat ≤ 32) (h3 : c.s3.len.toNat ≤ 32)
    (hb : c.b0.len.toNat ≤ 192) : ¬ Illegal c := by
  obtain ⟨hop, hrsv⟩ := (opcodeMatch_eq_iff c i).1 h
  rw [not_illegal_iff, hop]
  exact ⟨opcodeMatch_range i, hrsv, fun _ => h0, fun _ => h1, fun _ => ⟨h2, h3⟩, fun _ => hb⟩

/-- Settles O4: with empty slots a command is legal exactly when its word matches a row. -/
theorem everyWordMatchesOneRowOrNone : Obligations.EveryWordMatchesOneRowOrNone := by
  refine ⟨fun w => ?_, fun c i => decode_row, fun i j h => by rw [ctorIdx_eq, ctorIdx_eq, h]⟩
  by_cases hillegal : Illegal (Command.bare w)
  · have hempty : (StringSlot.ofStr []).len.toNat ≤ 32 := by decide
    have hnoBits : (BitSlot.ofBits []).len.toNat ≤ 192 := by decide
    exact .inr ⟨decode_of_illegal hillegal, fun i hi =>
      legal_of_row hi hempty hempty hempty hempty hnoBits hillegal⟩
  · exact .inl ((decode_of_legal hillegal).imp fun i hi => ⟨hi, decode_row hi⟩)

/-! ### The encoder -/

theorem encode_row (i : Instr) : (encode i).cmd &&& opcodeMask = i.opcodeMatch := by
  cases i <;> exact Laws.OpcodeWord.commandWord_masked _ _ _

/-- String operand `k` is presented in slot `Sk`, the bit string in `B0`; the other slots are empty (R58, R63). -/
theorem encode_slots (i : Instr) :
    (encode i).s0 = .ofStr (i.strings.getD 0 []) ∧ (encode i).s1 = .ofStr (i.strings.getD 1 []) ∧
      (encode i).s2 = .ofStr (i.strings.getD 2 []) ∧ (encode i).s3 = .ofStr (i.strings.getD 3 []) ∧
      (encode i).b0 = .ofBits i.bitString := by
  cases i <;> exact ⟨rfl, rfl, rfl, rfl, rfl⟩

theorem strings_getD_length_le {i : Instr} (h : i.wellFormed = true) (k : Nat) :
    (i.strings.getD k []).length ≤ 32 := by
  obtain ⟨hstrings, -⟩ := (wellFormed_iff i).1 h
  rw [List.getD_eq_getElem?_getD]
  cases hk : i.strings[k]? with
  | none => exact Nat.zero_le 32
  | some s => exact hstrings s (List.mem_of_getElem? hk)

/-- A well-formed command is presented in slots whose lengths fit. -/
theorem encode_legal {i : Instr} (h : i.wellFormed = true) : ¬ Illegal (encode i) := by
  obtain ⟨hs0, hs1, hs2, hs3, hb0⟩ := encode_slots i
  obtain ⟨-, hbits⟩ := (wellFormed_iff i).1 h
  have hlen (k : Nat) : (StringSlot.ofStr (i.strings.getD k [])).len.toNat ≤ 32 :=
    (ofStr_len (strings_getD_length_le h k)).trans_le (strings_getD_length_le h k)
  exact legal_of_row (encode_row i) (hs0 ▸ hlen 0) (hs1 ▸ hlen 1) (hs2 ▸ hlen 2) (hs3 ▸ hlen 3)
    (hb0 ▸ (ofBits_len hbits).trans_le hbits)

theorem selectedInstr_encode {i : Instr} (h : i.wellFormed = true) : selectedInstr (encode i) = some i := by
  obtain ⟨hop, -⟩ := (opcodeMatch_eq_iff _ i).1 (encode_row i)
  obtain ⟨hs0, hs1, hs2, hs3, hb0⟩ := encode_slots i
  obtain ⟨-, hbits⟩ := (wellFormed_iff i).1 h
  have htext (k : Nat) : (StringSlot.ofStr (i.strings.getD k [])).text = i.strings.getD k [] :=
    text_ofStr (strings_getD_length_le h k)
  unfold selectedInstr
  rw [hop, hs0, hs1, hs2, hs3, hb0, htext, htext, htext, htext, bits_ofBits hbits]
  cases i with
  | sgtin gtin serial partition => exact congrArg (some <| Instr.sgtin gtin serial ·) (commandWord_p 0x3 partition 0)
  | enc6 text minBits => exact congrArg (some <| Instr.enc6 text ·) (commandWord_n 0x9 0 minBits)
  | dec6 bits minChars => exact congrArg (some <| Instr.dec6 bits ·) (commandWord_n 0xA 0 minChars)
  | partq partition => exact congrArg (some <| Instr.partq ·) (commandWord_p 0xB partition 0)
  | _ => rfl

/-- Settles O1: a slot gives back a string that fits, a command word the fields it was made from. -/
theorem decodeOfEncode : Obligations.DecodeOfEncode := fun i h =>
  (decode_eq_ok_iff _ i).2 ⟨encode_legal h, selectedInstr_encode h⟩

/-- Settles O7: both words are what the encoder presents. -/
theorem writtenOutWordsDecode : Obligations.WrittenOutWordsDecode :=
  ⟨decodeOfEncode (.sgtin (ascii "00043935460624") (ascii "12345") 0b101) (by decide),
    decodeOfEncode (.enc6 (ascii "AB") 72) (by decide)⟩

/-! ### What a command uses (30_encoding.md R58, R61) -/

theorem take_eq_of_sameString {a b : StringSlot} (h : SameString a b) (k : Fin 4) : a.take k = b.take k := by
  obtain ⟨hlen, hch⟩ := h
  have htext : a.text = b.text := by
    refine List.ext_getElem (by simp [StringSlot.text, hlen]) fun i hi _ => ?_
    simp only [StringSlot.text, List.length_take, Vector.length_toList, lt_min_iff] at hi
    simp only [StringSlot.text, List.getElem_take, Vector.getElem_toList]
    exact hch ⟨i, hi.2⟩ hi.1
  rw [StringSlot.take, StringSlot.take, hlen, htext]

theorem take_eq_of_sameBits {a b : BitSlot} (h : SameBits a b) : a.take = b.take := by
  obtain ⟨hlen, hb⟩ := h
  have hbits : a.bits = b.bits := by
    refine List.ext_getElem (by simp [BitSlot.bits, hlen]) fun i hi _ => ?_
    simp only [BitSlot.bits, List.length_take, Vector.length_toList, lt_min_iff] at hi
    simp only [BitSlot.bits, List.getElem_take, Vector.getElem_toList]
    exact hb ⟨i, hi.2⟩ hi.1
  rw [BitSlot.take, BitSlot.take, hlen, hbits]

theorem decode_eq_of_sameUsed {a b : Command} (h : SameUsed a b) : decode a = decode b := by
  obtain ⟨hop, hrsv, hp, hn, h0, h1, h23, hb⟩ := h
  have hop' : b.op = a.op := BitVec.eq_of_toNat_eq (by rw [op_toNat, op_toNat]; exact hop.symm)
  have hrsv' : b.rsv = a.rsv := by rw [Bool.eq_iff_iff, rsv_eq_true_iff, rsv_eq_true_iff, hrsv]
  have hp' (h : opOf a = 3 ∨ opOf a = 0xB) : a.p = b.p :=
    BitVec.eq_of_toNat_eq (by rw [p_toNat, p_toNat]; exact hp h)
  have hn' (h : opOf a = 9 ∨ opOf a = 0xA) : a.n = b.n :=
    BitVec.eq_of_toNat_eq (by rw [n_toNat, n_toNat]; exact hn h)
  have ht0 (h : 1 ≤ opOf a ∧ opOf a ≤ 9) : a.s0.take 0 = b.s0.take 0 := take_eq_of_sameString (h0 h) 0
  have ht1 (h : 1 ≤ opOf a ∧ opOf a ≤ 7) : a.s1.take 1 = b.s1.take 1 := take_eq_of_sameString (h1 h) 1
  have hopOf : a.op.toNat = opOf a := op_toNat a
  unfold decode
  rw [hrsv', hop', hopOf]
  split
  case isTrue => rfl
  case isFalse =>
    split
    case h_1 hrow =>
      obtain ⟨h2, h3⟩ := h23 hrow
      rw [ht0 (by omega), ht1 (by omega), take_eq_of_sameString h2, take_eq_of_sameString h3]
    case h_3 hrow => rw [ht0 (by omega), ht1 (by omega), hp' (.inl hrow)]
    case h_8 hrow => rw [ht0 (by omega)]
    case h_9 hrow => rw [ht0 (by omega), hn' (.inl hrow)]
    case h_10 hrow => rw [take_eq_of_sameBits (hb hrow), hn' (.inr hrow)]
    case h_11 hrow => rw [hp' (.inr hrow)]
    case h_12 => rfl
    all_goals rw [ht0 (by omega), ht1 (by omega)]

end Sys2Proof

namespace Sys2Proof.Machine

open Sys2Proof.Statements

/-! ### A presented command -/

theorem step_presentFirst (c : Command) (s : State) :
    step (presentFirst c s) = match decode c with
      | .ok i => exec i s
      | .error _ => .next (takeFault .illegalCommand s) :=
  step_of_command (presentFirst_inputs c s) (event_present c)

/-- Settles O5: a step looks at a presented command through the decoder only. -/
theorem unusedOperandsAreIgnored : Obligations.UnusedOperandsAreIgnored := by
  intro a b h
  have hdecode := decode_eq_of_sameUsed h
  exact ⟨hdecode, fun s => by rw [step_presentFirst, step_presentFirst, hdecode]⟩

theorem code_ne_illegal {f : CommandFault} (h : f ≠ .illegalCommand) : f.code ≠ 0x5 := by
  cases f with
  | illegalCommand => exact absurd rfl h
  | _ => decide

/-- A command of the machine never ends with the code of `IllegalCommand` (60_exceptions.md R216, R217). -/
theorem exec_status_ne_illegal {i : Instr} {s t : State} (h : exec i s = .next t) : t.regs.status ≠ 0x5 := by
  rcases (exec_next_iff i s t).1 h with ⟨r, hr, rfl⟩ | ⟨f, hf, rfl⟩
  · rw [commandResult_status hr]; decide
  · exact code_ne_illegal (commandResult_error hf)

/-- Settles O6: the decoder accepts exactly the legal commands, and no accepted command writes the code. -/
theorem illegalCommandExactlyWhen : Obligations.IllegalCommandExactlyWhen := by
  intro s c rest hpresents
  have hstep := step_of_command hpresents rfl
  constructor
  · intro hillegal
    obtain ⟨e, he⟩ := decode_of_illegal hillegal
    rw [hstep, he]
    rfl
  · intro hlegal
    obtain ⟨i, hi⟩ := decode_of_legal hlegal
    obtain ⟨t, ht, -⟩ := exec_completes i ⟨s.regs, rest⟩
    exact ⟨i, t, hi, by rw [hstep, hi]; exact ht, ht, exec_status_ne_illegal ht⟩

theorem decode_of_decodeTableWord {w : Nat} {i : Instr} (h : decodeTableWord 16 w = some i) :
    decode (tableCommand 16 w) = .ok i := by
  unfold decodeTableWord at h
  cases hd : decode (tableCommand 16 w) with
  | error e => rw [hd] at h; cases h
  | ok j => rw [hd] at h; cases h; rfl

/-- Settles O13: the placed word is a presented command. -/
theorem placedWordRuns : Obligations.PlacedWordRuns := by
  intro s w i h
  rw [State.withFetchWord, step_presentFirst, decode_of_decodeTableWord h]

/-! ### Tag layouts, piece by piece (30_encoding.md R72 to R76) -/

/-- The number a decimal field of a layout shows in the register. -/
theorem extractLsb'_dec2bin {b : Bits} (before : Bits) {w : Nat} (s : Str) (after : Bits) (lo : Nat)
    (hb : b.length = 96) (e : b = before ++ dec2bin w s ++ after) (ha : after.length = lo) :
    ((toReg 96 b).extractLsb' lo w).toNat = decval s % 2 ^ w := by
  rw [extractLsb'_piece before _ after w lo hb e (dec2bin_length w s) ha, toReg_dec2bin_toNat]

/-- Settles O35: each field is the piece of the layout that so many bits follow. -/
theorem gidLayoutPlaces : Obligations.GidLayoutPlaces := by
  intro mgr item ser
  have hlength := layoutGid_length mgr item ser
  refine ⟨hlength, layoutGid_header mgr item ser, ?manager, ?item, ?serial⟩
  case manager =>
    exact extractLsb'_dec2bin headerGid mgr (dec2bin 24 item ++ dec2bin 36 ser) 60 hlength
      (by simp only [layoutGid, List.append_assoc]) (by simp)
  case item =>
    exact extractLsb'_dec2bin (headerGid ++ dec2bin 28 mgr) item (dec2bin 36 ser) 36 hlength rfl (by simp)
  case serial =>
    exact extractLsb'_dec2bin (headerGid ++ dec2bin 28 mgr ++ dec2bin 24 item) ser [] 0 hlength
      (List.append_nil _).symm rfl

/-- Settles O36: manager and item share 44 bits in every row. -/
theorem sgtinLayoutPlaces : Obligations.SgtinLayoutPlaces := by
  intro p part3 mgr item ser
  have hbits := partrow_bits p
  have hlength := layoutSgtin_length p part3 mgr item ser
  refine ⟨hlength, layoutSgtin_header p part3 mgr item ser, layoutSgtin_filter p part3 mgr item ser,
    layoutSgtin_partition p part3 mgr item ser, ?manager, ?item, ?serial⟩
  case manager =>
    exact extractLsb'_dec2bin (headerSgtin ++ filterSgtin ++ regBits part3) mgr
      (dec2bin (partrow p).itemBits item ++ dec2bin 38 ser) _ hlength
      (by simp only [layoutSgtin, List.append_assoc]) (by simp; omega)
  case item =>
    exact extractLsb'_dec2bin (headerSgtin ++ filterSgtin ++ regBits part3 ++ dec2bin (partrow p).managerBits mgr) item
      (dec2bin 38 ser) 38 hlength rfl (by simp)
  case serial =>
    exact extractLsb'_dec2bin _ ser [] 0 hlength (List.append_nil _).symm rfl

/-- Settles O37: as for GID-96, with the filter after the header. -/
theorem tcinLayoutPlaces : Obligations.TcinLayoutPlaces := by
  intro item ser
  have hlength := layoutTcin_length item ser
  refine ⟨hlength, layoutTcin_header item ser, layoutTcin_filter item ser, ?item, ?serial⟩
  case item =>
    exact extractLsb'_dec2bin (headerTcin ++ filterTcin) item (dec2bin 50 ser) 50 hlength rfl (by simp)
  case serial =>
    exact extractLsb'_dec2bin (headerTcin ++ filterTcin ++ dec2bin 35 item) ser [] 0 hlength
      (List.append_nil _).symm rfl

/-- Settles O38: the asset ID bits are the last piece, and a register gives its bit string back. -/
theorem tiaiLayoutPlaces : Obligations.TiaiLayoutPlaces := by
  intro ref id72 hid
  have hlength := layoutTiai_length ref hid
  refine ⟨hlength, layoutTiai_header ref hid, layoutTiai_filter ref hid, ?reference, ?assetId⟩
  case reference =>
    exact extractLsb'_dec2bin (headerTiai ++ filterTiai) ref id72 72 hlength rfl hid
  case assetId =>
    rw [extractLsb'_piece (headerTiai ++ filterTiai ++ dec2bin 13 ref) id72 [] 72 0 hlength
      (List.append_nil _).symm hid rfl, regBits_toReg hid]

/-! ### The header names the scheme (30_encoding.md R71, R79) -/

theorem schemeOf_header {tag : BitVec 96} (k : Scheme) (h : tag.extractLsb' 88 8 = k.header) :
    schemeOf tag = some k := by
  unfold schemeOf
  rw [h]
  cases k <;> rfl

theorem schemeOf_zero : schemeOf 0 = none := by decide

/-- A completed tag command shows its own scheme's header. -/
theorem commandResult_scheme {i : Instr} {r : ResultRegs} (h : commandResult i = .ok r) :
    schemeOf r.tag = schemeMade i := by
  cases i with
  | gidDpci d c i s =>
    rcases gidDpci_cases d c i s with ⟨hd, hc, hi, hs⟩ | he
    · cases (gidDpci_ok hd hc hi hs).symm.trans h
      exact schemeOf_header .gid (layoutGid_header _ _ _)
    · cases he.symm.trans h
  | gidGtin g s =>
    rcases gidGtin_cases g s with ⟨hg, hs⟩ | he
    · cases (gidGtin_ok hg hs).symm.trans h
      exact schemeOf_header .gid (layoutGid_header _ _ _)
    · cases he.symm.trans h
  | sgtin g s p =>
    rcases sgtin_cases block g s p with ⟨hg, hs⟩ | he
    · cases (sgtin_ok block p hg hs).symm.trans h
      exact schemeOf_header .sgtin (layoutSgtin_header p _ _ _ _)
    · cases he.symm.trans h
  | tcin i s =>
    rcases tcin_cases i s with ⟨hi, hs⟩ | he
    · cases (tcin_ok hi hs).symm.trans h
      exact schemeOf_header .tcin (layoutTcin_header _ _)
    · cases he.symm.trans h
  | tiaiD r a =>
    rcases tiaiD_cases block r a with ⟨hr, ha⟩ | he
    · cases (tiaiD_ok block hr ha).symm.trans h
      exact schemeOf_header .tiai (layoutTiai_header _ (dec2bin_length 72 _))
    · cases he.symm.trans h
  | tiaiC r a =>
    rcases tiaiC_cases block r a with ⟨hr, ha⟩ | ⟨-, he⟩ | ⟨-, -, he⟩
    · cases (tiaiC_ok block hr ha).symm.trans h
      exact schemeOf_header .tiai (layoutTiai_header _ (charField_length _ (by simp)))
    · cases he.symm.trans h
    · cases he.symm.trans h
  | tiaiH r a =>
    rcases tiaiH_cases block r a with ⟨hr, ha⟩ | he
    · cases (tiaiH_ok block hr ha).symm.trans h
      exact schemeOf_header .tiai (layoutTiai_header _ (hex2bin_length 72 _))
    · cases he.symm.trans h
  | _ =>
    obtain ⟨htag, -⟩ := (commandResult_clears h).1 rfl
    rw [htag]
    exact schemeOf_zero

theorem code_ne_ok (f : CommandFault) : f.code ≠ 0x1 := by
  cases f <;> decide

/-- Settles O39: a fault clears `TAG`, and zero is no scheme's header. -/
theorem headerNamesTheScheme : Obligations.HeaderNamesTheScheme := by
  refine ⟨fun i s t h => ?_, schemeOf_zero⟩
  rcases (exec_next_iff i s t).1 h with ⟨r, hr, rfl⟩ | ⟨f, -, rfl⟩
  · exact (commandResult_scheme hr).trans (if_pos (commandResult_status hr)).symm
  · rw [takeFault_tag, takeFault_status, if_neg (code_ne_ok f)]
    exact schemeOf_zero

end Sys2Proof.Machine

/-! Proofs of the statements on the check digit (40_check_digit.md). -/

namespace Sys2Proof.Machine

open Sys2Proof.Statements

/-- The two sums as one weighted sum over the indices; any two weights, because they change places with every digit. -/
theorem sum_weights_mul_digitval (even odd : Nat) (s : Str) :
    ∑ j ∈ Finset.range s.length, (if j % 2 = 0 then even else odd) * digitval (s.getD j 0x30) =
      even * sumOdd s + odd * sumEven s := by
  induction s generalizing even odd with
  | nil => rfl
  | cons c s ih =>
    have hswap (j : Nat) : (if (j + 1) % 2 = 0 then even else odd) = if j % 2 = 0 then odd else even := by
      split <;> split <;> omega
    simp only [List.length_cons, Finset.sum_range_succ', hswap, List.getD_cons_succ, List.getD_cons_zero,
      Nat.zero_mod, if_true]
    rw [ih odd even, sumOdd_cons, sumEven_cons]
    ring

/-- The check value completes the weighted sum to a multiple of 10. -/
theorem add_checkValue_mod (s : Str) : (3 * sumOdd s + sumEven s + checkValue s) % 10 = 0 := by
  unfold checkValue
  omega

/-- Settles O28: the digit is the check value, and the sum over the indices is the one it completes. -/
theorem chkdigCompletesTheWeightedSum : Obligations.ChkdigCompletesTheWeightedSum := by
  refine fun digits s => ⟨fun hdigits => ⟨checkValue digits, checkValue_lt digits, ?sum, ?result⟩, fun hbad => ?fault⟩
  case sum =>
    rw [sum_weights_mul_digitval, Nat.one_mul]
    exact add_checkValue_mod digits
  case result =>
    rw [exec_eq_retire, commandResult, chkdig_ok hdigits]
    rfl
  case fault =>
    rw [exec_eq_retire, commandResult, chkdig_error hbad]
    rfl

end Sys2Proof.Machine

/-! Proofs of the statements on the six-bit codec (41_sixbit_codec.md). -/

namespace Sys2Proof.Machine

open Sys2Proof.Statements

/-! ### Bit strings put together from rows (41_sixbit_codec.md R103) -/

theorem flatMap_rows_length (rows : List (Byte × BitVec 6)) :
    (rows.flatMap fun row => regBits row.2).length = 6 * rows.length := by
  induction rows with
  | nil => rfl
  | cons row rows ih =>
    rw [List.flatMap_cons, List.length_append, regBits_length, ih, List.length_cons]
    ring

theorem flatMap_rows_length_mod (rows : List (Byte × BitVec 6)) :
    (rows.flatMap fun row => regBits row.2).length % 6 = 0 := by
  rw [flatMap_rows_length, Nat.mul_mod_right]

theorem decodeGroups_flatMap_rows {table : SixbitTable} (ht : table.Allowed) {rows : List (Byte × BitVec 6)}
    (h : ∀ row ∈ rows, row.2 = 0 ∨ row ∈ table) :
    decodeGroups table (groups6 (rows.flatMap fun row => regBits row.2)) =
      .ok ((rows.filter fun row => row.2 != 0).map Prod.fst) := by
  rw [groups6_flatMap]
  exact decodeGroups_ok ht rows h

/-! ### The round trip (41_sixbit_codec.md R104) -/

/-- The table row a character is encoded by, when it is supported. -/
def symbolRow (table : SixbitTable) (c : Byte) : Byte × BitVec 6 :=
  (upperChar c, (SixbitTable.code? table (upperChar c)).getD 0)

/-- The rows of a text, after a number of spaces: spaces have the code zero, so padding reads as spaces. -/
def paddedRows (table : SixbitTable) (text : Str) (spaces : Nat) : List (Byte × BitVec 6) :=
  List.replicate spaces (chSpace, 0) ++ text.map (symbolRow table)

theorem symbolRow_mem {table : SixbitTable} {c : Byte} (h : supported table c = true) : symbolRow table c ∈ table := by
  obtain ⟨g, hg⟩ := (supported_true_iff table c).1 h
  rw [symbolRow, hg]
  exact code?_eq_some hg

theorem paddedRows_subset {table : SixbitTable} (ht : table.Allowed) {text : Str}
    (h : text.all (supported table) = true) (spaces : Nat) : ∀ row ∈ paddedRows table text spaces, row ∈ table := by
  intro row hrow
  obtain ⟨-, -, hspace⟩ := ht
  rcases List.mem_append.1 hrow with hpad | hsymbol
  · rw [List.eq_of_mem_replicate hpad]
    exact hspace
  · obtain ⟨c, hc, rfl⟩ := List.mem_map.1 hsymbol
    exact symbolRow_mem (List.all_eq_true.1 h c hc)

/-- In an allowed table space alone has the code zero. -/
theorem code_eq_zero_iff {table : SixbitTable} (ht : table.Allowed) {row : Byte × BitVec 6} (h : row ∈ table) :
    row.2 = 0 ↔ row.1 = chSpace := by
  obtain ⟨hsymbols, hcodes, hspace⟩ := ht
  constructor
  · intro h0
    rw [List.inj_on_of_nodup_map hcodes h hspace h0]
  · intro h20
    rw [List.inj_on_of_nodup_map hsymbols h hspace h20]

theorem zeros_append_body (table : SixbitTable) (text : Str) (spaces : Nat) :
    List.replicate (6 * spaces) false ++ (upper text).flatMap (codeBits table) =
      (paddedRows table text spaces).flatMap fun row => regBits row.2 := by
  rw [paddedRows, List.flatMap_append, upper, List.flatMap_map, List.flatMap_map]
  congr 1
  induction spaces with
  | zero => rfl
  | succ k ih =>
    rw [Nat.mul_succ, Nat.add_comm, List.replicate_add, ih]
    rfl

/-- Dropping the rows of code zero drops the spaces. -/
theorem paddedRows_symbols {table : SixbitTable} (ht : table.Allowed) {text : Str}
    (h : text.all (supported table) = true) (spaces : Nat) :
    ((paddedRows table text spaces).filter fun row => row.2 != 0).map Prod.fst =
      (upper text).filter (· != chSpace) := by
  have hzero : ∀ row ∈ paddedRows table text spaces, (row.2 != 0) = (row.1 != chSpace) := fun row hrow => by
    rw [Bool.eq_iff_iff, bne_iff_ne, bne_iff_ne, ne_eq, code_eq_zero_iff ht (paddedRows_subset ht h spaces row hrow)]
  rw [List.filter_congr hzero]
  simp [paddedRows, symbolRow, upper, List.filter_map, Function.comp_def]

/-- Padding of whole groups leaves the text without its spaces. -/
theorem sixbitDecode_encoded {table : SixbitTable} (ht : table.Allowed) {text : Str}
    (h : text.all (supported table) = true) (spaces : Nat) :
    sixbitDecode table (List.replicate (6 * spaces) false ++ (upper text).flatMap (codeBits table)) 0 =
      .ok ((upper text).filter (· != chSpace)) := by
  have hgroups := decodeGroups_flatMap_rows ht fun row hrow => .inr (paddedRows_subset ht h spaces row hrow)
  rw [paddedRows_symbols ht h] at hgroups
  rw [zeros_append_body, sixbitDecode_ok (flatMap_rows_length_mod _) hgroups, lpad0, Nat.zero_sub,
    List.replicate_zero, List.nil_append]

/-- Without lowercase letters `upper` changes nothing. -/
theorem upper_eq_self {text : Str} (h : ∀ c ∈ text, ¬ (0x61 ≤ c.toNat ∧ c.toNat ≤ 0x7A)) : upper text = text :=
  (List.map_congr_left fun c hc => by rw [upperChar_eq, if_neg (h c hc), id]).trans (List.map_id text)

theorem encoded_length (table : SixbitTable) (text : Str) (pad : Nat) :
    (List.replicate pad false ++ (upper text).flatMap (codeBits table)).length = pad + 6 * text.length := by
  rw [List.length_append, List.length_replicate, body_length, upper_length]

/-- Settles O30: whole groups of padding are spaces of the padded text, and decoding drops exactly the spaces; other
padding leaves a group short. -/
theorem sixbitRoundTrip : Obligations.SixbitRoundTrip := by
  intro table text m ht htext
  refine ⟨_, sixbitEncode_ok htext m, ?whole, ?short, ?identity⟩
  case whole =>
    intro hm
    rw [show m - 6 * text.length = 6 * (m / 6 - text.length) by omega]
    exact sixbitDecode_encoded ht htext _
  case short =>
    intro hlt hm
    have hlength : (List.replicate (m - 6 * text.length) false ++
        (upper text).flatMap (codeBits table)).length = m := by
      rw [encoded_length]
      omega
    exact ⟨hlength, sixbitDecode_partial (by rwa [hlength]) 0⟩
  case identity =>
    rintro hkept rfl
    have hupper : upper text = text := upper_eq_self fun c hc => (hkept c hc).2
    have hspaces : text.filter (· != chSpace) = text :=
      List.filter_eq_self.2 fun c hc => bne_iff_ne.2 (hkept c hc).1
    have hdecode := sixbitDecode_encoded ht htext 0
    rw [hupper, hspaces] at hdecode
    rw [hupper, Nat.zero_sub]
    exact hdecode

/-! ### `ENC6` (41_sixbit_codec.md R105) -/

theorem exec_enc6_ok {text : Str} (n : BitVec 8) (s : State) (h : text.all (supported block.sixbitTable) = true) :
    exec (.enc6 text n) s = .next (bitsShown (List.replicate (n.toNat - 6 * text.length) false ++
      (upper text).flatMap (codeBits block.sixbitTable)) s) := by
  rw [exec_eq_retire, commandResult, enc6_ok block n h]
  rfl

theorem exec_enc6_error {text : Str} (n : BitVec 8) (s : State)
    (h : text.all (supported block.sixbitTable) = false) : exec (.enc6 text n) s = .next (codeShown 0x3 s) := by
  rw [exec_eq_retire, commandResult, enc6_error block n h]
  rfl

/-- Settles O31: the code bits are the last `6 len` bits, and the character at an index owns one slice of six. -/
theorem enc6WritesTheCodes : Obligations.Enc6WritesTheCodes := by
  intro text n s
  refine ⟨fun htext => ?completes, exec_enc6_error n s⟩
  have hn := n.isLt
  refine ⟨_, exec_enc6_ok n s htext, ?length, ?capacity, ?zeros, ?codes⟩ <;> rw [encoded_length]
  case length => omega
  case capacity => simp only [SMAX, AUX_CAP]; omega
  case zeros =>
    intro x hx
    rw [Nat.add_sub_cancel, List.take_left' List.length_replicate] at hx
    exact List.eq_of_mem_replicate hx
  case codes =>
    intro i c hc
    refine ⟨symbolRow block.sixbitTable c, symbolRow_mem (List.all_eq_true.1 htext c (List.mem_of_getElem? hc)), rfl, ?_⟩
    have hupper : (upper text)[i]? = some (upperChar c) := by rw [upper, List.getElem?_map, hc, Option.map_some]
    rw [Nat.add_sub_cancel, ← List.drop_drop, List.drop_left' List.length_replicate]
    exact body_slice block.sixbitTable hupper

/-! ### `DEC6` (41_sixbit_codec.md R106) -/

/-- The row a group is read by: its symbol in the table, which the zero group does not need. -/
def groupRow (table : SixbitTable) (g : BitVec 6) : Byte × BitVec 6 :=
  ((SixbitTable.sym? table g).getD chSpace, g)

/-- What decodes is made of zeros and codes. -/
theorem groupRow_of_decodeGroups {table : SixbitTable} {gs : List (BitVec 6)} {out : Str}
    (h : decodeGroups table gs = .ok out) {g : BitVec 6} (hg : g ∈ gs) : g = 0 ∨ groupRow table g ∈ table := by
  by_cases h0 : g = 0
  · exact .inl h0
  · right
    cases hs : SixbitTable.sym? table g with
    | none => cases (decodeGroups_bad hg h0 ((sym?_none_iff table g).1 hs)).symm.trans h
    | some c =>
      rw [groupRow, hs]
      exact sym?_eq_some hs

/-- A bit string of whole groups is made of the rows its groups are read by. -/
theorem flatMap_groupRow (table : SixbitTable) {bits : Bits} (h6 : bits.length % 6 = 0) :
    bits = ((groups6 bits).map (groupRow table)).flatMap fun row => regBits row.2 := by
  rw [List.flatMap_map]
  exact (flatMap_groups6 h6).symm

theorem exec_dec6_rows {rows : List (Byte × BitVec 6)} (h : ∀ row ∈ rows, row.2 = 0 ∨ row ∈ block.sixbitTable)
    (n : BitVec 8) (s : State) :
    exec (.dec6 (rows.flatMap fun row => regBits row.2) n) s =
      .next (textShown (lpad0 ((rows.filter fun row => row.2 != 0).map Prod.fst) n.toNat) s) := by
  rw [exec_eq_retire, commandResult,
    dec6_ok block n (flatMap_rows_length_mod rows) (decodeGroups_flatMap_rows block_allowed.1 h)]
  rfl

theorem exec_dec6_error {bits : Bits} (n : BitVec 8) (s : State) (h : dec6 block bits n = .error .invalidBitGroup) :
    exec (.dec6 bits n) s = .next (codeShown 0x4 s) := by
  rw [exec_eq_retire, commandResult, h]
  rfl

/-- Settles O32: the groups of such a bit string are the rows' codes, and whatever decodes is such a bit string. -/
theorem dec6ReadsTheGroups : Obligations.Dec6ReadsTheGroups := by
  refine fun bits n s => ⟨?completes, ?faults⟩
  case completes =>
    rintro rows hrows rfl
    refine ⟨_, exec_dec6_rows hrows n s, ?length, ?capacity, ?text⟩
    case length => rw [lpad0_length, List.length_map, max_comm]
    case capacity =>
      have hnonzero : (rows.filter fun row => row.2 != 0).length ≤ rows.length := List.length_filter_le _ _
      have hlength : (rows.flatMap fun row => fit 6 row.2.toNat).length = 6 * rows.length := flatMap_rows_length rows
      have hn := n.isLt
      rw [lpad0_length, List.length_map, hlength]
      simp only [BMAX, AUX_CAP]
      omega
    case text => rw [lpad0, List.length_map]
  case faults =>
    intro hnone
    rcases dec6_cases block bits n with ⟨he, -⟩ | ⟨out, h6, hout, -⟩
    · exact exec_dec6_error n s he
    · refine absurd ⟨_, fun row hrow => ?_, flatMap_groupRow block.sixbitTable h6⟩ hnone
      obtain ⟨g, hg, rfl⟩ := List.mem_map.1 hrow
      exact groupRow_of_decodeGroups hout hg

/-! ### The default table (41_sixbit_codec.md R100, R101) -/

/-- Settles O29: the table is allowed as part of the block's parameters; its lookup is evaluated for every byte. -/
theorem sixbitTableIsLowSixBits : Obligations.SixbitTableIsLowSixBits :=
  ⟨block_allowed.1, rfl, by decide⟩

end Sys2Proof.Machine

/-! Proofs of the statements on the partition table (42_partition_table.md). -/

namespace Sys2Proof.Machine

open Sys2Proof.Statements

/-- `PARTQ` completes in every state and shows the selected row, packed (42_partition_table.md R122). -/
theorem exec_partq (p : BitVec 3) (s : State) : exec (.partq p) s = .next (rowShown (packRow (partrow p)) s) := by
  rw [exec_eq_retire, commandResult, partq, retire_ok]
  rfl

/-- Settles O33: the lookup and the packing are evaluated for each code; the state stays a variable. -/
theorem partqWritesTheRow : Obligations.PartqWritesTheRow := fun s =>
  ⟨exec_partq 0b000 s, exec_partq 0b001 s, exec_partq 0b010 s, exec_partq 0b011 s,
    exec_partq 0b100 s, exec_partq 0b101 s, exec_partq 0b110 s, exec_partq 0b111 s⟩

/-- The largest manager of each row fits its field: the decimal strings stay below the power of ten
(42_partition_table.md R123). -/
theorem managerDigits_fit {r : PartitionEntry} (hr : r ∈ partitionTable) :
    10 ^ r.managerDigits < 2 ^ r.managerBits := by
  revert r; decide

theorem itemDigits_fit {r : PartitionEntry} (hr : r ∈ partitionTable) : 10 ^ r.itemDigits < 2 ^ r.itemBits := by
  revert r; decide

/-- Settles O34: every code's row is one of the seven, and each of those has the sums and the bounds. -/
theorem partitionRowsFit : Obligations.PartitionRowsFit := fun p =>
  ⟨partrow_bits p, partrow_digits p, managerDigits_fit (partrow_mem p), itemDigits_fit (partrow_mem p)⟩

end Sys2Proof.Machine

/-! Proofs of the statements on field packing and the URIs (43_field_packing.md). -/

namespace Sys2Proof.Machine

/-! ### Field strings fit their fields (43_field_packing.md R132, R135) -/

/-- A field that holds every numeral of `n` digits holds every digit string of at most `n` characters. -/
theorem decval_lt_field {s : Str} {n width : Nat} (hdigits : alldigits s = true) (hlength : s.length ≤ n)
    (hfits : 10 ^ n ≤ 2 ^ width) : decval s < 2 ^ width :=
  (decval_lt_of_length_le hdigits hlength).trans_le hfits

theorem decval_head_lt_field {s : Str} {n width : Nat} (hdigits : alldigits s = true) (hfits : 10 ^ n ≤ 2 ^ width) :
    decval (head s n) < 2 ^ width :=
  (decval_head_lt hdigits n).trans_le hfits

theorem gidDpci_manager_digits {d c : Str} (hd : alldigits d = true) (hc : alldigits c = true) :
    alldigits (ascii "049" ++ lpad0 (head d 3) 3 ++ lpad0 (head c 2) 2) = true := by
  have hopen : alldigits (ascii "049") = true := by decide
  simp [hopen, alldigits_lpad0 (alldigits_head hd 3), alldigits_lpad0 (alldigits_head hc 2)]

theorem gidDpci_manager_length (d c : Str) :
    (ascii "049" ++ lpad0 (head d 3) 3 ++ lpad0 (head c 2) 2).length = 8 := by
  have hopen : (ascii "049").length = 3 := by decide
  simp [hopen]

theorem gidDpci_item_digits {i : Str} {check : Byte} (hi : alldigits i = true) (hcheck : isdigit check = true) :
    alldigits (ascii "00" ++ lpad0 (head i 4) 4 ++ [check]) = true := by
  have hopen : alldigits (ascii "00") = true := by decide
  simp [hopen, alldigits_lpad0 (alldigits_head hi 4), hcheck]

theorem gidDpci_item_length (i : Str) (check : Byte) :
    (ascii "00" ++ lpad0 (head i 4) 4 ++ [check]).length = 7 := by
  have hopen : (ascii "00").length = 2 := by decide
  simp [hopen]

theorem partrow_managerDigits_range (p : BitVec 3) :
    1 ≤ (partrow p).managerDigits ∧ (partrow p).managerDigits ≤ 12 := by
  revert p; decide

/-- The manager string of an SGTIN has the row's number of digits (45_sgtin_encoder.md R171). -/
theorem sgtinManager_length (p : BitVec 3) (gtin : Str) :
    (sgtinManager (partrow p) (gtin14 gtin)).length = (partrow p).managerDigits := by
  have hrange := partrow_managerDigits_range p
  have hzero : (ascii "0").length = 1 := by decide
  simp [sgtinManager, hzero]; omega

theorem sgtinItem_length (p : BitVec 3) (gtin : Str) :
    (sgtinItem (partrow p) (gtin14 gtin)).length = (partrow p).itemDigits := by
  have htogether := sgtinManager_sgtinItem_length p gtin
  have hdigits := partrow_digits p
  rw [sgtinManager_length] at htogether
  omega

theorem alldigits_sgtinManager (r : PartitionEntry) {g : Str} (hg : alldigits g = true) :
    alldigits (sgtinManager r g) = true := by
  have hzero : alldigits (ascii "0") = true := by decide
  simp [sgtinManager, hzero, alldigits_substr hg]

theorem alldigits_sgtinItem (r : PartitionEntry) {g : Str} (hg : alldigits g = true) :
    alldigits (sgtinItem r g) = true := by
  have hzero : alldigits (ascii "0") = true := by decide
  simp [sgtinItem, hzero, alldigits_substr hg]

theorem decval_sgtinManager_lt (p : BitVec 3) {gtin : Str} (h : alldigits gtin = true) :
    decval (sgtinManager (partrow p) (gtin14 gtin)) < 2 ^ (partrow p).managerBits :=
  decval_lt_field (alldigits_sgtinManager _ (alldigits_gtin14 h)) (sgtinManager_length p gtin).le
    (managerDigits_fit (partrow_mem p)).le

theorem decval_sgtinItem_lt (p : BitVec 3) {gtin : Str} (h : alldigits gtin = true) :
    decval (sgtinItem (partrow p) (gtin14 gtin)) < 2 ^ (partrow p).itemBits :=
  decval_lt_field (alldigits_sgtinItem _ (alldigits_gtin14 h)) (sgtinItem_length p gtin).le
    (itemDigits_fit (partrow_mem p)).le

/-- The codes of at most 12 characters, padded to 72 bits, are exactly 72 bits (47_tiai_encoders.md R197). -/
theorem sixbitEncode_length {table : SixbitTable} {text : Str} {b : Bits} (htext : text.length ≤ 12)
    (h : sixbitEncode table text 72 = .ok b) : b.length = 72 := by
  cases hsupported : text.all (supported table) with
  | true =>
    cases (sixbitEncode_ok hsupported 72).symm.trans h
    exact charField_length table htext
  | false => cases (sixbitEncode_error hsupported 72).symm.trans h

/-- Settles O48: every field string is a digit string no longer than its field holds, and twelve codes are 72 bits. -/
theorem fieldValuesFit : Obligations.FieldValuesFit := by
  refine ⟨fun d c i serial hd hc hi hserial => ⟨?_, fun k hk => ?_, ?_⟩, fun gtin hgtin => ⟨?_, ?_, fun p => ?_⟩,
    fun x hx => ⟨?_, ?_, ?_, ?_, ?_⟩, fun x hx => ?_, fun table x b hb => ?_⟩
  · exact decval_lt_field (gidDpci_manager_digits hd hc) (gidDpci_manager_length d c).le (by norm_num)
  · exact decval_lt_field (gidDpci_item_digits hi hk) (gidDpci_item_length i k).le (by norm_num)
  · exact decval_head_lt_field hserial (by norm_num)
  · exact decval_lt_field (n := 8) (alldigits_substr (alldigits_gtin14 hgtin) 0 8) (by simp) (by norm_num)
  · rw [decval_lpad0]
    exact decval_lt_field (n := 6) (alldigits_substr (alldigits_gtin14 hgtin) 8 14) (by simp) (by norm_num)
  · exact ⟨decval_sgtinManager_lt p hgtin, decval_sgtinItem_lt p hgtin⟩
  · exact decval_head_lt_field hx (by norm_num)
  · rw [decval_lpad0]
    exact decval_head_lt_field hx (by norm_num)
  · exact decval_head_lt_field hx (by norm_num)
  · exact (decval_tail_lt hx 3).trans (by norm_num)
  · exact decval_head_lt_field hx (by norm_num)
  · exact (hexval_head_lt hx 18).trans_le (by norm_num)
  · have hlength := sixbitEncode_length (by simp) hb
    exact ⟨hlength, fitbits_of_length hlength⟩

/-! ### A completed asset-identifier command (47_tiai_encoders.md R195 to R198) -/

theorem tiaiD_eq_ok {params : Params} {r a : Str} {regs : ResultRegs} (h : tiaiD params r a = .ok regs) :
    alldigits r = true ∧ alldigits a = true ∧
      regs = packTiai params r (dec2bin 72 (head a 21)) (strip0 (head a 21)) := by
  rcases tiaiD_cases params r a with ⟨hr, ha⟩ | he
  · exact ⟨hr, ha, (Except.ok.inj ((tiaiD_ok params hr ha).symm.trans h)).symm⟩
  · cases he.symm.trans h

theorem tiaiC_eq_ok {params : Params} {r a : Str} {regs : ResultRegs} (h : tiaiC params r a = .ok regs) :
    alldigits r = true ∧ a.all (supported params.sixbitTable) = true ∧
      regs = packTiai params r (charField params.sixbitTable (head a 12)) (head a 12) := by
  rcases tiaiC_cases params r a with ⟨hr, ha⟩ | ⟨-, he⟩ | ⟨-, -, he⟩
  · exact ⟨hr, ha, (Except.ok.inj ((tiaiC_ok params hr ha).symm.trans h)).symm⟩
  · cases he.symm.trans h
  · cases he.symm.trans h

theorem tiaiH_eq_ok {params : Params} {r a : Str} {regs : ResultRegs} (h : tiaiH params r a = .ok regs) :
    alldigits r = true ∧ allhex a = true ∧
      regs = packTiai params r (hex2bin 72 (head a 18)) (strip0 (head a 18)) := by
  rcases tiaiH_cases params r a with ⟨hr, ha⟩ | he
  · exact ⟨hr, ha, (Except.ok.inj ((tiaiH_ok params hr ha).symm.trans h)).symm⟩
  · cases he.symm.trans h

/-- The shared step uses the opening text in front of the URI's components and nowhere else. -/
theorem packTiai_opening (params : Params) (opening r : Str) (id72 : Bits) (idc : Str) :
    ∃ component, (packTiai params r id72 idc).uri = params.tiaiUriPrefix ++ component ∧
      packTiai { params with tiaiUriPrefix := opening } r id72 idc =
        { packTiai params r id72 idc with uri := opening ++ component } := by
  refine ⟨strip0 (tail r 3) ++ [chDot] ++ idc, ?_, ?_⟩
  · simp only [packTiai_eq, tagResult_uri, List.append_assoc]
  · simp only [packTiai_eq, tagResult, List.append_assoc]

/-- Settles O53: the conditions for completing do not look at the opening text, and the shared step writes it in front
of the URI only. -/
theorem tiaiPrefixChangesTheUriOnly : Obligations.TiaiPrefixChangesTheUriOnly := by
  intro params opening reference assetId r
  refine ⟨fun h => ?_, fun h => ?_, fun h => ?_⟩
  · obtain ⟨hreference, hasset, rfl⟩ := tiaiD_eq_ok h
    obtain ⟨component, huri, hother⟩ := packTiai_opening params opening reference _ _
    exact ⟨_, component, huri, tiaiD_ok _ hreference hasset, hother⟩
  · obtain ⟨hreference, hasset, rfl⟩ := tiaiC_eq_ok h
    obtain ⟨component, huri, hother⟩ := packTiai_opening params opening reference _ _
    exact ⟨_, component, huri, tiaiC_ok _ hreference hasset, hother⟩
  · obtain ⟨hreference, hasset, rfl⟩ := tiaiH_eq_ok h
    obtain ⟨component, huri, hother⟩ := packTiai_opening params opening reference _ _
    exact ⟨_, component, huri, tiaiH_ok _ hreference hasset, hother⟩

/-! ### The longest URIs (43_field_packing.md R141) -/

theorem packTiai_uri_length_le (params : Params) (r : Str) (id72 : Bits) {idc : Str} (h : idc.length ≤ 21) :
    (packTiai params r id72 idc).uri.length ≤ params.tiaiUriPrefix.length + 25 := by
  have hstrip := strip0_length_le (tail r 3)
  have htail := tail_length r 3
  simp [packTiai_eq]; omega

theorem tiaiD_uri_length_le {params : Params} {r a : Str} {regs : ResultRegs} (h : tiaiD params r a = .ok regs) :
    regs.uri.length ≤ params.tiaiUriPrefix.length + 25 := by
  obtain ⟨-, -, rfl⟩ := tiaiD_eq_ok h
  exact packTiai_uri_length_le params r _ ((strip0_length_le _).trans (by simp))

theorem tiaiC_uri_length_le {params : Params} {r a : Str} {regs : ResultRegs} (h : tiaiC params r a = .ok regs) :
    regs.uri.length ≤ params.tiaiUriPrefix.length + 25 := by
  obtain ⟨-, -, rfl⟩ := tiaiC_eq_ok h
  exact packTiai_uri_length_le params r _ (by simp)

theorem tiaiH_uri_length_le {params : Params} {r a : Str} {regs : ResultRegs} (h : tiaiH params r a = .ok regs) :
    regs.uri.length ≤ params.tiaiUriPrefix.length + 25 := by
  obtain ⟨-, -, rfl⟩ := tiaiH_eq_ok h
  exact packTiai_uri_length_le params r _ ((strip0_length_le _).trans (by simp))

theorem gidDpci_uri_length_le {d c i s : Str} {regs : ResultRegs} (h : gidDpci d c i s = .ok regs) :
    regs.uri.length ≤ 46 := by
  rcases gidDpci_cases d c i s with ⟨hd, hc, hi, hs⟩ | he
  · cases (gidDpci_ok hd hc hi hs).symm.trans h
    rw [tagResult_uri, renderGid_length, gidDpci_manager_length, gidDpci_item_length, head_length]
    omega
  · cases he.symm.trans h

theorem gidGtin_uri_length_le {g s : Str} {regs : ResultRegs} (h : gidGtin g s = .ok regs) :
    regs.uri.length ≤ 46 := by
  rcases gidGtin_cases g s with ⟨hg, hs⟩ | he
  · cases (gidGtin_ok hg hs).symm.trans h
    rw [tagResult_uri, renderGid_length, lpad0_length, substr_length, substr_length, gtin14_length, head_length]
    omega
  · cases he.symm.trans h

theorem sgtin_uri_length_le {params : Params} {g s : Str} {p : BitVec 3} {regs : ResultRegs}
    (h : sgtin params g s p = .ok regs) : regs.uri.length ≤ 49 := by
  rcases sgtin_cases params g s p with ⟨hg, hs⟩ | he
  · cases (sgtin_ok params p hg hs).symm.trans h
    have htogether := sgtinManager_sgtinItem_length p g
    rw [tagResult_uri, renderSgtin_length, head_length]
    omega
  · cases he.symm.trans h

theorem tcin_uri_length_le {i s : Str} {regs : ResultRegs} (h : tcin i s = .ok regs) : regs.uri.length ≤ 48 := by
  rcases tcin_cases i s with ⟨hi, hs⟩ | he
  · cases (tcin_ok hi hs).symm.trans h
    have hrender := renderTcin_length_le (lpad0 (head i 10) 10) (head s 15)
    rw [lpad0_head_length, head_length] at hrender
    rw [tagResult_uri]
    omega
  · cases he.symm.trans h

/-- The longest URI of each command of the block (43_field_packing.md R141). -/
def uriBound : Instr → Nat
  | .gidDpci _ _ _ _ | .gidGtin _ _ => 46
  | .sgtin _ _ _ => 49
  | .tcin _ _ => 48
  | .tiaiD _ _ | .tiaiC _ _ | .tiaiH _ _ => 47
  | .chkdig _ | .enc6 _ _ | .dec6 _ _ | .partq _ => 0

theorem uriBound_le (i : Instr) : uriBound i ≤ 49 := by
  cases i <;> simp [uriBound]

theorem block_opening_length : block.tiaiUriPrefix.length + 25 = 47 := by decide

theorem commandResult_uri_length_le {i : Instr} {r : ResultRegs} (h : commandResult i = .ok r) :
    r.uri.length ≤ uriBound i := by
  cases i with
  | gidDpci => exact gidDpci_uri_length_le h
  | gidGtin => exact gidGtin_uri_length_le h
  | sgtin => exact sgtin_uri_length_le h
  | tcin => exact tcin_uri_length_le h
  | tiaiD => exact (tiaiD_uri_length_le h).trans_eq block_opening_length
  | tiaiC => exact (tiaiC_uri_length_le h).trans_eq block_opening_length
  | tiaiH => exact (tiaiH_uri_length_le h).trans_eq block_opening_length
  | chkdig | enc6 | dec6 | partq =>
    obtain ⟨hhelper, -⟩ := commandResult_clears h
    obtain ⟨-, huri⟩ := hhelper rfl
    simp [huri]

theorem exec_uri_length_le {i : Instr} {s t : State} (h : exec i s = .next t) : t.regs.uri.length ≤ uriBound i := by
  rcases (exec_next_iff i s t).1 h with ⟨r, hr, rfl⟩ | ⟨f, -, rfl⟩
  · exact commandResult_uri_length_le hr
  · simp

/-- Settles O49: each command's URI is within its bound, and an allowed opening text leaves 25 characters. -/
theorem uriLengths : Obligations.UriLengths := by
  constructor
  · intro i s t h
    have hbound := exec_uri_length_le h
    refine ⟨hbound.trans (uriBound_le i), ?_⟩
    cases i with
    | chkdig | enc6 | dec6 | partq => exact Nat.le_zero.1 hbound
    | _ => exact hbound
  · rintro params ⟨-, -, hroom⟩ reference assetId r (h | h | h)
    · exact (tiaiD_uri_length_le h).trans hroom
    · exact (tiaiC_uri_length_le h).trans hroom
    · exact (tiaiH_uri_length_le h).trans hroom

/-! ### A GTIN with a leading zero more (43_field_packing.md R138) -/

/-- While there is room, a zero in front takes the place of one that padding would add. -/
theorem lpad0_cons_chZero {s : Str} {n : Nat} (h : s.length < n) : lpad0 (chZero :: s) n = lpad0 s n := by
  have hroom : n - s.length = n - (s.length + 1) + 1 := by omega
  rw [lpad0, lpad0, List.length_cons, hroom, List.replicate_succ', List.append_assoc, List.singleton_append]

theorem gtin14_cons_chZero {gtin : Str} (h : gtin.length < 14) : gtin14 (chZero :: gtin) = gtin14 gtin := by
  have hcut : head (chZero :: gtin) 14 = chZero :: gtin := List.take_of_length_le h
  have hcut' : head gtin 14 = gtin := List.take_of_length_le h.le
  rw [gtin14, gtin14, hcut, hcut', lpad0_cons_chZero h]

/-- `GID.GTIN` looks at its GTIN through the digit check and the normalisation only (44_gid_encoders.md R151). -/
theorem gidGtin_congr {g g' : Str} (serial : Str) (hdigits : alldigits g = alldigits g')
    (hnorm : gtin14 g = gtin14 g') : gidGtin g serial = gidGtin g' serial := by
  simp only [gidGtin, hdigits, hnorm]

/-- `SGTIN` looks at its GTIN through the digit check and the normalisation only (45_sgtin_encoder.md R170). -/
theorem sgtin_congr (params : Params) {g g' : Str} (serial : Str) (p : BitVec 3)
    (hdigits : alldigits g = alldigits g') (hnorm : gtin14 g = gtin14 g') :
    sgtin params g serial p = sgtin params g' serial p := by
  simp only [sgtin, hdigits, hnorm]

/-- Settles O50: the digit check and the normalisation agree on both spellings. -/
theorem gtinLeadingZerosDoNotMatter : Obligations.GtinLeadingZerosDoNotMatter := by
  intro gtin serial p s h
  have hdigits : alldigits (chZero :: gtin) = alldigits gtin := by
    rw [alldigits_cons, isdigit_chZero, Bool.true_and]
  have hnorm := gtin14_cons_chZero h
  refine ⟨gtin14_length gtin, hnorm, ?_, ?_⟩
  · rw [exec_eq_retire, exec_eq_retire]
    exact congrArg (retire · s) (gidGtin_congr serial hdigits hnorm)
  · rw [exec_eq_retire, exec_eq_retire]
    exact congrArg (retire · s) (sgtin_congr block serial p hdigits hnorm)

end Sys2Proof.Machine

/-! Proofs of the statements on the GID-96 tag commands (44_gid_encoders.md). -/

namespace Sys2Proof.Machine

open Sys2Proof.Statements

/-! ### A GID-96 tag whose fields fit (30_encoding.md R72, 43_field_packing.md R139) -/

theorem bitsval_layoutGid_of_lt {mgr item ser : Str} (hmgr : decval mgr < 2 ^ 28) (hitem : decval item < 2 ^ 24)
    (hser : decval ser < 2 ^ 36) : bitsval (layoutGid mgr item ser) =
      0x35 * 2 ^ 88 + decval mgr * 2 ^ 60 + decval item * 2 ^ 36 + decval ser := by
  rw [bitsval_layoutGid, Nat.mod_eq_of_lt hmgr, Nat.mod_eq_of_lt hitem, Nat.mod_eq_of_lt hser]

theorem bitsval_layoutGid_lt (mgr item ser : Str) : bitsval (layoutGid mgr item ser) < 2 ^ 96 :=
  (bitsval_lt _).trans_eq (by rw [layoutGid_length])

/-- A completed tag command shows its layout's value. -/
theorem retire_tagResult (tag : Bits) (uri : Str) (s : State) :
    retire (.ok (tagResult tag uri)) s = .next (tagShown (bitsval tag) uri s) := rfl

/-! ### `GID.DPCI` (44_gid_encoders.md R150) -/

theorem gidDpci_manager_value (d c : Str) :
    decval (ascii "049" ++ lpad0 (head d 3) 3 ++ lpad0 (head c 2) 2) =
      4900000 + 100 * decval (head d 3) + decval (head c 2) := by
  have hopen : decval (ascii "049") = 49 := by decide
  simp only [decval_append, decval_lpad0, lpad0_head_length, hopen]
  ring

theorem gidDpci_item_value (i checked : Str) :
    decval (ascii "00" ++ lpad0 (head i 4) 4 ++ [checkdigit checked]) =
      10 * decval (head i 4) + checkValue checked := by
  have hopen : decval (ascii "00") = 0 := by decide
  simp only [decval_append, decval_cons, decval_nil, decval_lpad0, hopen, digitval_checkdigit, List.length_singleton,
    List.length_nil]
  ring

/-- The weighted sum of a string's digits, its check digit's when the weights are 3 and 1 (40_check_digit.md R90). -/
def weightedSum (even odd : Nat) (s : Str) : Nat := even * sumOdd s + odd * sumEven s

theorem weightedSum_cons (even odd : Nat) (c : Byte) (s : Str) :
    weightedSum even odd (c :: s) = even * digitval c + weightedSum odd even s := by
  rw [weightedSum, weightedSum, sumOdd_cons, sumEven_cons]
  ring

/-- Behind a string of odd length the two weights change places. -/
theorem weightedSum_append (even odd : Nat) (s t : Str) : weightedSum even odd (s ++ t) =
    weightedSum even odd s + if s.length % 2 = 0 then weightedSum even odd t else weightedSum odd even t := by
  induction s generalizing even odd with
  | nil => simp [weightedSum, sumOdd, sumEven, everyOther]
  | cons c s ih =>
    have hparity : (s.length + 1) % 2 = 0 ↔ ¬ s.length % 2 = 0 := by omega
    rw [List.cons_append, weightedSum_cons, weightedSum_cons, ih odd even, List.length_cons, Nat.add_assoc]
    simp only [hparity, ite_not]

/-- The weighted sum of a digit string, each digit read off its value (00_scope.md R9). -/
theorem weightedSum_eq_sum_value (even odd : Nat) {s : Str} (hs : alldigits s = true) : weightedSum even odd s =
    ∑ j ∈ Finset.range s.length, (if j % 2 = 0 then even else odd) * (decval s / 10 ^ (s.length - 1 - j) % 10) := by
  obtain ⟨-, hdigit⟩ := decimalNumeralDigits s hs
  rw [weightedSum, ← sum_weights_mul_digitval]
  refine Finset.sum_congr rfl fun j hj => ?_
  have hlt := Finset.mem_range.1 hj
  rw [hdigit j (s.getD j 0x30) (by simp [hlt])]

/-- The weighted sum of an operand padded to its length, as a sum over its value's digits. -/
theorem weightedSum_lpad0_head (even odd : Nat) {s : Str} (hs : alldigits s = true) (n : Nat) :
    weightedSum even odd (lpad0 (head s n) n) =
      ∑ j ∈ Finset.range n, (if j % 2 = 0 then even else odd) * (decval (head s n) / 10 ^ (n - 1 - j) % 10) := by
  rw [weightedSum_eq_sum_value even odd (alldigits_lpad0 (alldigits_head hs n) n), lpad0_head_length, decval_lpad0]

/-- The string `GID.DPCI` computes its check digit over. -/
def dpciChecked (d c i : Str) : Str :=
  ascii "49" ++ lpad0 (head d 3) 3 ++ lpad0 (head c 2) 2 ++ lpad0 (head i 4) 4

/-- Department, class and item stand at the indices from 2, 5 and 7 on, so the weights begin with 3, 1 and 1. -/
theorem weightedSum_dpciChecked {d c i : Str} (hd : alldigits d = true) (hc : alldigits c = true)
    (hi : alldigits i = true) :
    let dv := decval (head d 3)
    let cv := decval (head c 2)
    let iv := decval (head i 4)
    weightedSum 3 1 (dpciChecked d c i) =
      3 * 4 + 9 + 3 * (dv / 100) + dv / 10 % 10 + 3 * (dv % 10) + cv / 10 + 3 * (cv % 10)
        + iv / 1000 + 3 * (iv / 100 % 10) + iv / 10 % 10 + 3 * (iv % 10) := by
  have hdv := decval_head_lt hd 3
  have hcv := decval_head_lt hc 2
  have hiv := decval_head_lt hi 4
  have hopen : weightedSum 3 1 (ascii "49") = 3 * 4 + 9 := by decide
  have hlength : (ascii "49").length = 2 := by decide
  simp only [dpciChecked, weightedSum_append, hopen, hlength, List.length_append, lpad0_head_length,
    weightedSum_lpad0_head _ _ hd, weightedSum_lpad0_head _ _ hc, weightedSum_lpad0_head _ _ hi]
  simp [Finset.sum_range_succ]
  omega

theorem exec_gidDpci_ok {d c i serial : Str} (s : State) (hd : alldigits d = true) (hc : alldigits c = true)
    (hi : alldigits i = true) (hserial : alldigits serial = true) :
    let mgr := ascii "049" ++ lpad0 (head d 3) 3 ++ lpad0 (head c 2) 2
    let item := ascii "00" ++ lpad0 (head i 4) 4 ++ [checkdigit (dpciChecked d c i)]
    exec (.gidDpci d c i serial) s = .next (tagShown (bitsval (layoutGid mgr item (head serial 10)))
      (renderGid mgr item (head serial 10)) s) := by
  rw [exec_eq_retire, commandResult, gidDpci_ok hd hc hi hserial]
  exact retire_tagResult _ _ s

/-- Settles O40: the three field values fit, so the layout's value is their sum, and the check value completes the
weighted sum. -/
theorem gidDpciResult : Obligations.GidDpciResult := by
  refine fun d c i serial s => ⟨?completes, fun hbad => ?fault⟩
  case completes =>
    rintro ⟨hd, hc, hi, hserial⟩
    obtain ⟨hfits, -⟩ := fieldValuesFit
    obtain ⟨hmgr, hitem, hser⟩ := hfits d c i serial hd hc hi hserial
    have hvalue := bitsval_layoutGid_of_lt hmgr (hitem _ (isdigit_checkdigit (dpciChecked d c i))) hser
    rw [gidDpci_manager_value, gidDpci_item_value] at hvalue
    refine ⟨checkValue (dpciChecked d c i), checkValue_lt _, ?sum, ?bound, ?result⟩
    case sum =>
      rw [← weightedSum_dpciChecked hd hc hi, weightedSum, Nat.one_mul]
      exact add_checkValue_mod _
    case bound => exact hvalue ▸ bitsval_layoutGid_lt _ _ _
    case result =>
      rw [exec_gidDpci_ok s hd hc hi hserial, hvalue]
      simp only [renderGid, uriGid, checkdigit, List.append_assoc]
  case fault =>
    have hnot : ¬ (alldigits d = true ∧ alldigits c = true ∧ alldigits i = true ∧ alldigits serial = true) := by
      rintro ⟨hd, hc, hi, hserial⟩
      simp [hd, hc, hi, hserial] at hbad
    rw [exec_eq_retire, commandResult, gidDpci_error hnot]
    rfl

/-! ### `GID.GTIN` (44_gid_encoders.md R151) -/

/-- The 14 digits are the manager's eight and the item's six. -/
theorem gtin14_split (gtin : Str) : substr (gtin14 gtin) 0 8 ++ substr (gtin14 gtin) 8 14 = gtin14 gtin := by
  have hwhole : (gtin14 gtin).take 14 = gtin14 gtin := List.take_of_length_le (gtin14_length gtin).le
  rw [substr, substr, hwhole, List.drop_zero, List.take_append_drop]

theorem gtin14_last_length (gtin : Str) : (substr (gtin14 gtin) 8 14).length = 6 := by simp

/-- The six last digits are the remainder by `10^6`, the eight before them the quotient. -/
theorem gtin14_split_value {gtin : Str} (h : alldigits gtin = true) :
    decval (substr (gtin14 gtin) 0 8) = decval (head gtin 14) / 10 ^ 6 ∧
      decval (substr (gtin14 gtin) 8 14) = decval (head gtin 14) % 10 ^ 6 := by
  have hlast : decval (substr (gtin14 gtin) 8 14) < 10 ^ 6 :=
    decval_lt_of_length_le (alldigits_substr (alldigits_gtin14 h) 8 14) (gtin14_last_length gtin).le
  have hwhole : decval (gtin14 gtin) = decval (head gtin 14) := decval_lpad0 _ 14
  rw [← gtin14_split gtin, decval_append, gtin14_last_length] at hwhole
  omega

theorem exec_gidGtin_ok {gtin serial : Str} (s : State) (hgtin : alldigits gtin = true)
    (hserial : alldigits serial = true) :
    let mgr := substr (gtin14 gtin) 0 8
    let item := lpad0 (substr (gtin14 gtin) 8 14) 7
    exec (.gidGtin gtin serial) s = .next (tagShown (bitsval (layoutGid mgr item (lpad0 (head serial 10) 10)))
      (renderGid mgr item (head serial 10)) s) := by
  rw [exec_eq_retire, commandResult, gidGtin_ok hgtin hserial]
  exact retire_tagResult _ _ s

/-- Settles O41: the digits are cut before the last six, and the zeros that pad item and serial add nothing to their
values. -/
theorem gidGtinResult : Obligations.GidGtinResult := by
  refine fun gtin serial s => ⟨?completes, fun hbad => ?fault⟩
  case completes =>
    rintro ⟨hgtin, hserial⟩
    obtain ⟨-, hfits, -⟩ := fieldValuesFit
    obtain ⟨hmgr, hitem, -⟩ := hfits gtin hgtin
    obtain ⟨hfirst, hlast⟩ := gtin14_split_value hgtin
    have hser : decval (lpad0 (head serial 10) 10) < 2 ^ 36 := by
      rw [decval_lpad0]
      exact decval_head_lt_field hserial (by norm_num)
    have hvalue := bitsval_layoutGid_of_lt hmgr hitem hser
    rw [decval_lpad0, decval_lpad0, hfirst, hlast] at hvalue
    refine ⟨hvalue ▸ bitsval_layoutGid_lt _ _ _, substr (gtin14 gtin) 0 8, substr (gtin14 gtin) 8 14, by simp,
      gtin14_last_length gtin, gtin14_split gtin, ?_⟩
    have hzero : lpad0 (substr (gtin14 gtin) 8 14) 7 = [0x30] ++ substr (gtin14 gtin) 8 14 := by
      rw [lpad0, gtin14_last_length]
      rfl
    rw [exec_gidGtin_ok s hgtin hserial, hvalue, hzero]
    simp only [renderGid, uriGid, List.append_assoc]
  case fault =>
    have hnot : ¬ (alldigits gtin = true ∧ alldigits serial = true) := by
      rintro ⟨hgtin, hserial⟩
      simp [hgtin, hserial] at hbad
    rw [exec_eq_retire, commandResult, gidGtin_error hnot]
    rfl

end Sys2Proof.Machine

/-! Proofs of the statements on the SGTIN-96 tag command (45_sgtin_encoder.md). -/

namespace Sys2Proof.Machine

open Sys2Proof.Statements

/-! ### A digit string cut in two (20_memory.md R43) -/

theorem decval_append_div {t : Str} (s : Str) (ht : alldigits t = true) :
    decval (s ++ t) / 10 ^ t.length = decval s := by
  rw [decval_append, Nat.add_comm, Nat.add_mul_div_right _ _ (by positivity), Nat.div_eq_of_lt (decval_lt ht),
    Nat.zero_add]

theorem decval_append_mod {t : Str} (s : Str) (ht : alldigits t = true) :
    decval (s ++ t) % 10 ^ t.length = decval t := by
  rw [decval_append, Nat.mul_add_mod_self_right, Nat.mod_eq_of_lt (decval_lt ht)]

theorem decval_zero_append (s : Str) : decval ([0x30] ++ s) = decval s := by
  have hzero : decval [0x30] = 0 := by decide
  rw [decval_append, hzero, Nat.zero_mul, Nat.zero_add]

/-! ### The eleven digits `g[2] .. g[12]` (45_sgtin_encoder.md R171) -/

/-- The digits of the normalised GTIN that `SGTIN` uses. -/
def sgtinDigits (gtin : Str) : Str := substr (gtin14 gtin) 2 13

theorem sgtinDigits_length (gtin : Str) : (sgtinDigits gtin).length = 11 := by simp [sgtinDigits]

theorem alldigits_sgtinDigits {gtin : Str} (h : alldigits gtin = true) : alldigits (sgtinDigits gtin) = true :=
  alldigits_substr (alldigits_gtin14 h) 2 13

/-- Two digits stand before the eleven and the check digit behind them. -/
theorem exists_gtin14_eq (gtin : Str) : ∃ (before : Str) (check : Byte), before.length = 2 ∧
    before ++ sgtinDigits gtin ++ [check] = gtin14 gtin := by
  have hlength := gtin14_length gtin
  obtain ⟨check, hcheck⟩ : ∃ check, (gtin14 gtin).drop 13 = [check] := List.length_eq_one_iff.1 (by simp)
  have hbefore : (gtin14 gtin).take 2 = ((gtin14 gtin).take 13).take 2 := by simp [List.take_take]
  refine ⟨(gtin14 gtin).take 2, check, by simp, ?_⟩
  rw [sgtinDigits, substr, hbefore, List.take_append_drop, ← hcheck, List.take_append_drop]

/-- Without the check digit and the two first digits the GTIN's value is that of the eleven. -/
theorem decval_sgtinDigits {gtin : Str} (h : alldigits gtin = true) :
    decval (sgtinDigits gtin) = decval (head gtin 14) / 10 % 10 ^ 11 := by
  obtain ⟨before, check, -, hparts⟩ := exists_gtin14_eq gtin
  have hdigits := alldigits_gtin14 h
  have hcheck : alldigits [check] = true := by
    rw [← hparts, alldigits_append, Bool.and_eq_true] at hdigits
    exact hdigits.2
  have hcut := decval_append_div (before ++ sgtinDigits gtin) hcheck
  have hlow := decval_append_mod before (alldigits_sgtinDigits h)
  rw [hparts, gtin14, decval_lpad0, List.length_singleton, pow_one] at hcut
  rw [hcut, ← hlow, sgtinDigits_length]

/-- The manager takes the first digits of the eleven, as many as the row leaves it. -/
theorem sgtinManager_eq (p : BitVec 3) (gtin : Str) :
    sgtinManager (partrow p) (gtin14 gtin) = [0x30] ++ (sgtinDigits gtin).take (11 - min p.toNat 6) := by
  obtain ⟨hmanager, -⟩ := partrow_by_code p
  have hlast : (partrow p).managerDigits + 1 = 2 + (11 - min p.toNat 6) := by omega
  have hwithin : min (2 + (11 - min p.toNat 6)) 13 = 2 + (11 - min p.toNat 6) := by omega
  rw [sgtinManager, sgtinDigits, hlast, substr, substr, List.take_drop, List.take_take, hwithin]
  rfl

/-- The item takes the digits of the eleven the manager leaves. -/
theorem sgtinItem_eq (p : BitVec 3) (gtin : Str) :
    sgtinItem (partrow p) (gtin14 gtin) = [0x30] ++ (sgtinDigits gtin).drop (11 - min p.toNat 6) := by
  obtain ⟨hmanager, -⟩ := partrow_by_code p
  have hfirst : (partrow p).managerDigits + 1 = 2 + (11 - min p.toNat 6) := by omega
  rw [sgtinItem, sgtinDigits, hfirst, substr, substr, List.drop_drop]
  rfl

/-- The item's digits are the remainder by `10^k`, the manager's the quotient; the zero before each adds nothing. -/
theorem sgtin_split_value (p : BitVec 3) {gtin : Str} (h : alldigits gtin = true) :
    decval (sgtinManager (partrow p) (gtin14 gtin)) = decval (sgtinDigits gtin) / 10 ^ min p.toNat 6 ∧
      decval (sgtinItem (partrow p) (gtin14 gtin)) = decval (sgtinDigits gtin) % 10 ^ min p.toNat 6 := by
  have hlast : alldigits ((sgtinDigits gtin).drop (11 - min p.toNat 6)) = true :=
    alldigits_of_subset (fun _ => List.mem_of_mem_drop) (alldigits_sgtinDigits h)
  have hlength : ((sgtinDigits gtin).drop (11 - min p.toNat 6)).length = min p.toNat 6 := by
    rw [List.length_drop, sgtinDigits_length]
    omega
  have hquotient := decval_append_div ((sgtinDigits gtin).take (11 - min p.toNat 6)) hlast
  have hremainder := decval_append_mod ((sgtinDigits gtin).take (11 - min p.toNat 6)) hlast
  rw [List.take_append_drop, hlength] at hquotient hremainder
  rw [sgtinManager_eq, sgtinItem_eq, decval_zero_append, decval_zero_append]
  exact ⟨hquotient.symm, hremainder.symm⟩

/-! ### An SGTIN-96 tag whose fields fit (30_encoding.md R73, 43_field_packing.md R139) -/

theorem bitsval_layoutSgtin_lt (p part3 : BitVec 3) (mgr item ser : Str) :
    bitsval (layoutSgtin (partrow p) part3 mgr item ser) < 2 ^ 96 :=
  (bitsval_lt _).trans_eq (by rw [layoutSgtin_length])

theorem bitsval_layoutSgtin_of_lt (p part3 : BitVec 3) {mgr item ser : Str}
    (hmgr : decval mgr < 2 ^ (partrow p).managerBits) (hitem : decval item < 2 ^ (partrow p).itemBits)
    (hser : decval ser < 2 ^ 38) : bitsval (layoutSgtin (partrow p) part3 mgr item ser) =
      0x30 * 2 ^ 88 + 1 * 2 ^ 85 + part3.toNat * 2 ^ 82 + decval mgr * 2 ^ (38 + (partrow p).itemBits)
        + decval item * 2 ^ 38 + decval ser := by
  rw [bitsval_layoutSgtin _ (partrow_bits p), Nat.mod_eq_of_lt hmgr, Nat.mod_eq_of_lt hitem, Nat.mod_eq_of_lt hser]

/-! ### `SGTIN` (45_sgtin_encoder.md R170) -/

theorem exec_sgtin_ok {gtin serial : Str} (p : BitVec 3) (s : State) (hgtin : alldigits gtin = true)
    (hserial : alldigits serial = true) :
    let mgr := sgtinManager (partrow p) (gtin14 gtin)
    let item := sgtinItem (partrow p) (gtin14 gtin)
    exec (.sgtin gtin serial p) s = .next (tagShown
      (bitsval (layoutSgtin (partrow p) (partitionBits .row p) mgr item (head serial 11)))
      (renderSgtin mgr item (head serial 11)) s) := by
  rw [exec_eq_retire, commandResult, sgtin_ok block p hgtin hserial]
  exact retire_tagResult _ _ s

/-- Settles O42: the eleven digits are cut before the last `k`, and each field holds its value. -/
theorem sgtinResult : Obligations.SgtinResult := by
  refine fun gtin serial p s => ⟨?completes, fun hbad => ?fault⟩
  case completes =>
    rintro ⟨hgtin, hserial⟩
    obtain ⟨hquotient, hremainder⟩ := sgtin_split_value p hgtin
    obtain ⟨-, -, hitemBits, hcode⟩ := partrow_by_code p
    have hvalue := bitsval_layoutSgtin_of_lt p (partitionBits .row p) (decval_sgtinManager_lt p hgtin)
      (decval_sgtinItem_lt p hgtin) (decval_head_lt_field (n := 11) hserial (by norm_num))
    rw [hquotient, hremainder, decval_sgtinDigits hgtin, hitemBits, hcode] at hvalue
    obtain ⟨before, check, hbefore, hparts⟩ := exists_gtin14_eq gtin
    refine ⟨hvalue ▸ bitsval_layoutSgtin_lt p _ _ _ _, before, (sgtinDigits gtin).take (11 - min p.toNat 6),
      (sgtinDigits gtin).drop (11 - min p.toNat 6), check, hbefore, ?first, ?last, ?whole, ?result⟩
    case first => simp [sgtinDigits_length]
    case last =>
      rw [List.length_drop, sgtinDigits_length]
      omega
    case whole =>
      rw [List.append_assoc before, List.take_append_drop]
      exact hparts
    case result =>
      rw [exec_sgtin_ok p s hgtin hserial, hvalue, sgtinManager_eq, sgtinItem_eq]
      simp only [renderSgtin, uriSgtin, List.append_assoc]
  case fault =>
    have hnot : ¬ (alldigits gtin = true ∧ alldigits serial = true) := by
      rintro ⟨hgtin, hserial⟩
      simp [hgtin, hserial] at hbad
    rw [exec_eq_retire, commandResult, sgtin_error block p hnot]
    rfl

/-! ### The partition bits (45_sgtin_encoder.md R172) -/

theorem partitionBits_eq (emit : ElseEmit) (p : BitVec 3) :
    partitionBits emit p = if p.toNat ≤ 6 then p else if emit = .row then 0b110 else 0b111 := by
  cases emit <;> revert p <;> decide

/-- Settles O43: the layout puts the chosen bits at their place, whatever the parameters. -/
theorem sgtinPartitionBits : Obligations.SgtinPartitionBits := by
  intro params gtin serial p r h
  rcases sgtin_cases params gtin serial p with ⟨hgtin, hserial⟩ | he
  · cases (sgtin_ok params p hgtin hserial).symm.trans h
    rw [tagResult_tag, layoutSgtin_partition, partitionBits_eq]
  · cases he.symm.trans h

/-! ### The digits `SGTIN` drops (45_sgtin_encoder.md R171) -/

/-- `SGTIN` looks at its GTIN through the digit check and the eleven digits only. -/
theorem sgtin_congr_digits (params : Params) {g g' : Str} (serial : Str) (p : BitVec 3)
    (hdigits : alldigits g = alldigits g') (heleven : sgtinDigits g = sgtinDigits g') :
    sgtin params g serial p = sgtin params g' serial p := by
  simp only [sgtin, hdigits, sgtinManager_eq, sgtinItem_eq, heleven]

theorem sgtinDigits_of_parts (a b c : Byte) {mid : Str} (h : mid.length = 11) :
    sgtinDigits ([a, b] ++ mid ++ [c]) = mid := by
  have hlength : ([a, b] ++ mid ++ [c]).length = 14 := by simp [h]
  have hwhole : gtin14 ([a, b] ++ mid ++ [c]) = [a, b] ++ mid ++ [c] := by
    rw [gtin14, head, List.take_of_length_le hlength.le, lpad0, hlength]
    rfl
  have hfront : ([a, b] ++ mid ++ [c]).take 13 = [a, b] ++ mid := List.take_left' (by simp [h])
  rw [sgtinDigits, hwhole, substr, hfront]
  rfl

/-- Settles O51: both GTINs are digit strings or neither is, and the eleven digits are the same. -/
theorem sgtinDropsThreeDigits : Obligations.SgtinDropsThreeDigits := by
  intro a b c a' b' c' mid serial p s hmid ha hb hc ha' hb' hc'
  have hdigits : alldigits ([a, b] ++ mid ++ [c]) = alldigits ([a', b'] ++ mid ++ [c']) := by
    simp [ha, hb, hc, ha', hb', hc']
  have heleven : sgtinDigits ([a, b] ++ mid ++ [c]) = sgtinDigits ([a', b'] ++ mid ++ [c']) := by
    rw [sgtinDigits_of_parts a b c hmid, sgtinDigits_of_parts a' b' c' hmid]
  rw [exec_eq_retire, exec_eq_retire]
  exact congrArg (retire · s) (sgtin_congr_digits block serial p hdigits heleven)

end Sys2Proof.Machine

/-! Proofs of the statement on the item-number tag command (46_tcin_encoder.md). -/

namespace Sys2Proof.Machine

open Sys2Proof.Statements

/-! ### The zeros that pad the item number show in neither the tag nor the URI (46_tcin_encoder.md R185) -/

theorem layoutTcin_lpad0 (item ser : Str) (n : Nat) : layoutTcin (lpad0 item n) ser = layoutTcin item ser := by
  simp only [layoutTcin, dec2bin, decval_lpad0]

theorem renderTcin_lpad0 (item ser : Str) (n : Nat) : renderTcin (lpad0 item n) ser = renderTcin item ser := by
  rw [renderTcin, renderTcin, strip0_lpad0]

/-! ### A TCIN-96 tag whose fields fit (30_encoding.md R75, 43_field_packing.md R139) -/

theorem bitsval_layoutTcin_lt (item ser : Str) : bitsval (layoutTcin item ser) < 2 ^ 96 :=
  (bitsval_lt _).trans_eq (by rw [layoutTcin_length])

theorem bitsval_layoutTcin_of_lt {item ser : Str} (hitem : decval item < 2 ^ 35) (hser : decval ser < 2 ^ 50) :
    bitsval (layoutTcin item ser) = 0x08 * 2 ^ 88 + decval item * 2 ^ 50 + decval ser := by
  rw [bitsval_layoutTcin, Nat.mod_eq_of_lt hitem, Nat.mod_eq_of_lt hser]

/-! ### `TCIN` (46_tcin_encoder.md R185) -/

theorem exec_tcin_ok {item serial : Str} (s : State) (hitem : alldigits item = true)
    (hserial : alldigits serial = true) :
    exec (.tcin item serial) s = .next (tagShown (bitsval (layoutTcin (head item 10) (head serial 15)))
      (renderTcin (head item 10) (head serial 15)) s) := by
  rw [exec_eq_retire, commandResult, tcin_ok hitem hserial, layoutTcin_lpad0, renderTcin_lpad0]
  exact retire_tagResult _ _ s

/-- Settles O44: ten digits fit 35 bits and fifteen fit 50, so the layout's value is the sum of its fields. -/
theorem tcinResult : Obligations.TcinResult := by
  refine fun item serial s => ⟨?completes, fun hbad => ?fault⟩
  case completes =>
    rintro ⟨hitem, hserial⟩
    have hvalue := bitsval_layoutTcin_of_lt (decval_head_lt_field (n := 10) hitem (by norm_num))
      (decval_head_lt_field (n := 15) hserial (by norm_num))
    refine ⟨hvalue ▸ bitsval_layoutTcin_lt _ _, ?_⟩
    rw [exec_tcin_ok s hitem hserial, hvalue]
    simp only [renderTcin, uriTcin]
  case fault =>
    have hnot : ¬ (alldigits item = true ∧ alldigits serial = true) := by
      rintro ⟨hitem, hserial⟩
      simp [hitem, hserial] at hbad
    rw [exec_eq_retire, commandResult, tcin_error hnot]
    rfl

end Sys2Proof.Machine

/-! Proofs of the statements on the asset-identifier tag commands (47_tiai_encoders.md). -/

namespace Sys2Proof.Machine

open Sys2Proof.Statements

/-! ### The shared step (47_tiai_encoders.md R195) -/

/-- Three reference digits fit 13 bits, so the tag's value is the sum of its fields (30_encoding.md R76). -/
theorem packTiai_shows {reference : Str} {id72 : Bits} (href : alldigits reference = true) (hid : id72.length = 72)
    (idc : Str) (s : State) :
    let v := 0x0A * 2 ^ 88 + decval (tail reference 3) * 2 ^ 72 + bitsval id72
    v < 2 ^ 96 ∧ (⟨packTiai block reference id72 idc, s.inputs⟩ : State) =
      tagShown v (ascii "urn:epc:tag:tiai-96:0." ++ strip0 (tail reference 3) ++ [0x2E] ++ idc) s := by
  have hfield : decval (tail reference 3) < 2 ^ 13 := (decval_tail_lt href 3).trans (by norm_num)
  have hlt : bitsval (layoutTiai (tail reference 3) id72) < 2 ^ 96 :=
    (bitsval_lt _).trans_eq (by rw [layoutTiai_length _ hid])
  have hvalue := bitsval_layoutTiai (tail reference 3) hid
  rw [Nat.mod_eq_of_lt hfield] at hvalue
  rw [← hvalue]
  exact ⟨hlt, rfl⟩

/-- The fault condition of a command that checks two operands. -/
theorem not_both_of_false {x y : Bool} (h : x = false ∨ y = false) : ¬ (x = true ∧ y = true) := by
  rintro ⟨rfl, rfl⟩
  simp at h

/-! ### `TIAI.D` (47_tiai_encoders.md R196) -/

theorem exec_tiaiD_ok {reference assetId : Str} (s : State) (href : alldigits reference = true)
    (hasset : alldigits assetId = true) : exec (.tiaiD reference assetId) s = .next
      ⟨packTiai block reference (dec2bin 72 (head assetId 21)) (strip0 (head assetId 21)), s.inputs⟩ := by
  rw [exec_eq_retire, commandResult, tiaiD_ok block href hasset, retire_ok]

/-- Settles O45: 21 digits fit 72 bits. -/
theorem tiaiDResult : Obligations.TiaiDResult := by
  refine fun reference assetId s => ⟨?completes, fun hbad => ?fault⟩
  case completes =>
    rintro ⟨href, hasset⟩
    have hfits : decval (head assetId 21) < 2 ^ 72 := decval_head_lt_field hasset (by norm_num)
    have hshows := packTiai_shows href (dec2bin_length 72 (head assetId 21)) (strip0 (head assetId 21)) s
    rw [bitsval_dec2bin, Nat.mod_eq_of_lt hfits] at hshows
    obtain ⟨hlt, hstate⟩ := hshows
    exact ⟨hlt, hstate ▸ exec_tiaiD_ok s href hasset⟩
  case fault =>
    rw [exec_eq_retire, commandResult, tiaiD_error block (not_both_of_false hbad)]
    rfl

/-! ### `TIAI.C` (47_tiai_encoders.md R197) -/

/-- Padding adds nothing: the field's value is the numeral of the codes. -/
theorem bitsval_charField (table : SixbitTable) (a : Str) :
    bitsval (charField table a) =
      (upper a).foldl (fun v c => 64 * v + ((SixbitTable.code? table c).getD 0).toNat) 0 := by
  rw [charField, bitsval_append, bitsval_zeros, Nat.zero_mul, Nat.zero_add, bitsval_body]

theorem bitsval_charField_lt (table : SixbitTable) (a : Str) : bitsval (charField table a) < 64 ^ a.length := by
  rw [bitsval_charField, ← upper_length a]
  exact numeral_lt 64 _ (upper a) fun _ _ => BitVec.isLt _

theorem exec_tiaiC_ok {reference assetId : Str} (s : State) (href : alldigits reference = true)
    (hasset : assetId.all (supported block.sixbitTable) = true) : exec (.tiaiC reference assetId) s = .next
      ⟨packTiai block reference (charField block.sixbitTable (head assetId 12)) (head assetId 12), s.inputs⟩ := by
  rw [exec_eq_retire, commandResult, tiaiC_ok block href hasset, retire_ok]

/-- Settles O46: the numeral of at most twelve codes is the field's value, and the reference is checked before the
text. -/
theorem tiaiCResult : Obligations.TiaiCResult := by
  refine fun reference assetId s => ⟨?completes, fun href => ?badReference, fun href hasset => ?badText⟩
  case completes =>
    rintro ⟨href, hasset⟩
    have hid : (charField block.sixbitTable (head assetId 12)).length = 72 := charField_length _ (by simp)
    have hcodes := bitsval_charField_lt block.sixbitTable (head assetId 12)
    have hshows := packTiai_shows href hid (head assetId 12) s
    rw [bitsval_charField] at hcodes hshows
    obtain ⟨hlt, hstate⟩ := hshows
    exact ⟨hcodes, hlt, hstate ▸ exec_tiaiC_ok s href hasset⟩
  case badReference =>
    rw [exec_eq_retire, commandResult, tiaiC_badReference block href]
    rfl
  case badText =>
    rw [exec_eq_retire, commandResult, tiaiC_badText block href hasset]
    rfl

/-- Settles O52: both commands write the same padded codes, and the layout keeps them at the low end of `TAG`. -/
theorem tiaiCPacksTheEnc6Bits : Obligations.TiaiCPacksTheEnc6Bits := by
  intro reference text s href htext hlength
  have hwhole : head text 12 = text := List.take_of_length_le hlength
  have hid := charField_length block.sixbitTable hlength
  obtain ⟨-, -, -, -, hplace⟩ := tiaiLayoutPlaces (tail reference 3) (charField block.sixbitTable text) hid
  refine ⟨_, _, exec_tiaiC_ok s href htext, exec_enc6_ok 72 s htext, ?_⟩
  rw [hwhole]
  exact hplace

/-! ### `TIAI.H` (47_tiai_encoders.md R198) -/

theorem exec_tiaiH_ok {reference assetId : Str} (s : State) (href : alldigits reference = true)
    (hasset : allhex assetId = true) : exec (.tiaiH reference assetId) s = .next
      ⟨packTiai block reference (hex2bin 72 (head assetId 18)) (strip0 (head assetId 18)), s.inputs⟩ := by
  rw [exec_eq_retire, commandResult, tiaiH_ok block href hasset, retire_ok]

/-- Settles O47: 18 hexadecimal digits are 72 bits. -/
theorem tiaiHResult : Obligations.TiaiHResult := by
  refine fun reference assetId s => ⟨?completes, fun hbad => ?fault⟩
  case completes =>
    rintro ⟨href, hasset⟩
    have hfits : hexval (head assetId 18) < 2 ^ 72 := (hexval_head_lt hasset 18).trans_le (by norm_num)
    have hshows := packTiai_shows href (hex2bin_length 72 (head assetId 18)) (strip0 (head assetId 18)) s
    rw [bitsval_hex2bin, Nat.mod_eq_of_lt hfits] at hshows
    obtain ⟨hlt, hstate⟩ := hshows
    exact ⟨hlt, hstate ▸ exec_tiaiH_ok s href hasset⟩
  case fault =>
    rw [exec_eq_retire, commandResult, tiaiH_error block (not_both_of_false hbad)]
    rfl

/-! ### Letter case (00_scope.md R8, R9) -/

theorem upperChar_toNat (c : Byte) :
    (upperChar c).toNat = if 0x61 ≤ c.toNat ∧ c.toNat ≤ 0x7A then c.toNat - 0x20 else c.toNat := by
  rw [upperChar_eq]
  split
  case isTrue hlower => rw [BitVec.toNat_ofNat, Nat.mod_eq_of_lt (by omega)]
  case isFalse => rfl

theorem upperChar_upperChar (c : Byte) : upperChar (upperChar c) = upperChar c := by
  have hlow : ¬ (0x61 ≤ (upperChar c).toNat ∧ (upperChar c).toNat ≤ 0x7A) := by
    rw [upperChar_toNat]
    split <;> omega
  rw [upperChar_eq (upperChar c), if_neg hlow]

theorem map_upperChar_upper (s : Str) : (upper s).map upperChar = s.map upperChar := by
  simp [upper, upperChar_upperChar]

/-- No letter becomes `'0'`. -/
theorem upperChar_beq_chZero (c : Byte) : (upperChar c == chZero) = (c == chZero) := by
  rw [Bool.eq_iff_iff, beq_iff_eq, beq_iff_eq, ← BitVec.toNat_inj, ← BitVec.toNat_inj, upperChar_toNat]
  have hzero : chZero.toNat = 0x30 := rfl
  split <;> omega

theorem strip0_upper (s : Str) : strip0 (upper s) = upper (strip0 s) := by
  simp only [strip0, upper, List.dropWhile_map, Function.comp_def, upperChar_beq_chZero]

theorem head_upper (s : Str) (n : Nat) : head (upper s) n = upper (head s n) := List.map_take.symm

theorem ishex_upperChar {c : Byte} (h : ishex c = true) : ishex (upperChar c) = true := by
  simp only [ishex, isdigit, isUpperHex, isLowerHex, Bool.or_eq_true, Bool.and_eq_true, decide_eq_true_eq] at h ⊢
  rw [upperChar_toNat]
  split <;> omega

theorem allhex_upper {s : Str} (h : allhex s = true) : allhex (upper s) = true := by
  simp only [allhex, upper, List.all_eq_true, List.forall_mem_map] at h ⊢
  exact fun c hc => ishex_upperChar (h c hc)

/-- The digits `'a'..'f'` and their capitals have the same values. -/
theorem hexdigitval_upperChar {c : Byte} (h : ishex c = true) : hexdigitval (upperChar c) = hexdigitval c := by
  simp only [ishex, isdigit, isUpperHex, isLowerHex, Bool.or_eq_true, Bool.and_eq_true, decide_eq_true_eq] at h
  simp only [hexdigitval, isdigit, isUpperHex, Bool.and_eq_true, decide_eq_true_eq, upperChar_toNat]
  split_ifs <;> omega

theorem hexval_upper {s : Str} (h : allhex s = true) : hexval (upper s) = hexval s := by
  rw [hexval, upper, List.foldl_map, hexval]
  exact List.foldl_ext _ _ 0 fun v c hc => by rw [hexdigitval_upperChar (List.all_eq_true.1 h c hc)]

/-- Settles O54: taking capitals keeps every digit's value and every leading `'0'`. -/
theorem hexCaseDoesNotChangeTheTag : Obligations.HexCaseDoesNotChangeTheTag := by
  intro reference assetId s href hasset
  refine ⟨_, _, exec_tiaiH_ok s href hasset, exec_tiaiH_ok s href (allhex_upper hasset), rfl, rfl, ?tag, ?uri⟩
  case tag => simp only [packTiai_eq, tagResult_tag, hex2bin, head_upper, hexval_upper (allhex_head hasset 18)]
  case uri => simp only [packTiai_eq, tagResult_uri, head_upper, strip0_upper, List.map_append, map_upperChar_upper]

end Sys2Proof.Machine

/-! Proofs of the statements on faults (60_exceptions.md). -/

namespace Sys2Proof.Machine

open Sys2Proof.Statements

/-! ### Between commands (60_exceptions.md R226) -/

/-- Settles O11: both kinds of sample, none and one that asks nothing, are no event. -/
theorem blockHoldsBetweenCommands : Obligations.BlockHoldsBetweenCommands :=
  ⟨step_idle, fun _ _ _ => step_of_hold rfl rfl⟩

/-! ### Fault entry (60_exceptions.md R219, R220) -/

/-- A command looks at no register, so it runs alike in states with the same coming samples (10_state.md R27). -/
theorem exec_eq_of_inputs_eq (i : Instr) {s s' : State} (h : s.inputs = s'.inputs) : exec i s = exec i s' := by
  obtain ⟨⟨regs, inputs⟩, ht, rfl⟩ := exec_completes i s
  rw [ht, exec_regs_indep ht s', h]

/-- Settles O24: fault entry writes every register and no sample, and a command looks at no register. -/
theorem faultEntry : Obligations.FaultEntry := by
  refine fun f s => ⟨rfl, rfl, ?codes, fun i r t ht => ?next⟩
  case codes => cases f <;> rfl
  case next => exact (exec_eq_of_inputs_eq i (s' := ⟨r, s.inputs⟩) (takeFault_inputs f s)).trans ht

/-! ### Bad operands, character by character and group by group -/

theorem alldigits_eq_false_iff (x : Str) :
    alldigits x = false ↔ ∃ c ∈ x, ¬ (0x30 ≤ c.toNat ∧ c.toNat ≤ 0x39) := by
  simp only [alldigits, List.all_eq_false, isdigit_iff]

@[simp] theorem allhex_nil : allhex [] = true := rfl

theorem allhex_eq_false_iff (x : Str) :
    allhex x = false ↔ ∃ c ∈ x, ¬ ((0x30 ≤ c.toNat ∧ c.toNat ≤ 0x39) ∨ (0x41 ≤ c.toNat ∧ c.toNat ≤ 0x46) ∨
      (0x61 ≤ c.toNat ∧ c.toNat ≤ 0x66)) := by
  simp only [allhex, List.all_eq_false, ishex, isdigit, isUpperHex, isLowerHex, Bool.or_eq_true, Bool.and_eq_true,
    decide_eq_true_eq, or_assoc]

theorem all_supported_eq_false_iff (table : SixbitTable) (text : Str) :
    text.all (supported table) = false ↔ ∃ c ∈ text, ∀ row ∈ table, row.1 ≠ upperChar c := by
  simp only [List.all_eq_false, Bool.not_eq_true, supported_false_iff]

/-- A bit string that `sixbit_decode` refuses: a partial group, or a nonzero group that is no code
(41_sixbit_codec.md R103). -/
def BadGroups (table : SixbitTable) (bits : Bits) : Prop :=
  bits.length % 6 ≠ 0 ∨ ∃ g ∈ groups6 bits, g ≠ 0 ∧ ∀ row ∈ table, row.2 ≠ g

theorem badGroups_iff (table : SixbitTable) (bits : Bits) :
    BadGroups table bits ↔ bits.length % 6 ≠ 0 ∨ ∃ j, 6 * j + 6 ≤ bits.length ∧ ∃ g : BitVec 6,
      regBits g = (bits.drop (6 * j)).take 6 ∧ g ≠ 0 ∧ ∀ row ∈ table, row.2 ≠ g := by
  refine or_congr_right ⟨?_, ?_⟩
  · rintro ⟨g, hmem, hbad⟩
    obtain ⟨j, hj, hg⟩ := (mem_groups6 g bits).1 hmem
    exact ⟨j, hj, g, hg, hbad⟩
  · rintro ⟨j, hj, g, hg, hbad⟩
    exact ⟨g, (mem_groups6 g bits).2 ⟨j, hj, hg⟩, hbad⟩

/-! ### Which fault a command raises (60_exceptions.md R217, R218) -/

/-- The condition on a command's operands under which it raises a fault, with the priority between its operands. -/
def Raises (i : Instr) : CommandFault → Prop
  | .invalidInput => (∃ x ∈ decimalOperands i, alldigits x = false) ∨ allhex (hexOperand i) = false
  | .unsupportedCharacter =>
      (∀ x ∈ decimalOperands i, alldigits x = true) ∧ (sixbitText i).all (supported block.sixbitTable) = false
  | .invalidBitGroup => ∃ bits n, i = .dec6 bits n ∧ BadGroups block.sixbitTable bits
  | .illegalCommand => False

/-- Every operand of numeral class holds digits of its class only (43_field_packing.md R132). -/
def GoodNumerals (i : Instr) : Prop :=
  (∀ x ∈ decimalOperands i, alldigits x = true) ∧ allhex (hexOperand i) = true

/-- A command without a six-bit text or a bit string can only complain of its numerals. -/
theorem raises_iff_of_numerals {i : Instr} (htext : sixbitText i = []) (hbits : ∀ bits n, i ≠ .dec6 bits n)
    (f : CommandFault) : Raises i f ↔ f = .invalidInput ∧ ¬ GoodNumerals i := by
  cases f with
  | invalidInput => simp [Raises, GoodNumerals, imp_iff_not_or]
  | unsupportedCharacter => simp [Raises, htext]
  | invalidBitGroup => simp [Raises, hbits]
  | illegalCommand => simp [Raises]

/-- Such a command, once its laws say that it completes on good numerals and faults otherwise. -/
theorem numerals_error_iff {i : Instr} {good : Prop} (htext : sixbitText i = []) (hbits : ∀ bits n, i ≠ .dec6 bits n)
    (herror : ¬ good → commandResult i = .error .invalidInput) (hok : good → ∃ r, commandResult i = .ok r)
    (hgood : GoodNumerals i ↔ good) (f : CommandFault) : commandResult i = .error f ↔ Raises i f := by
  rw [raises_iff_of_numerals htext hbits, hgood]
  by_cases h : good
  · obtain ⟨r, hr⟩ := hok h
    simp [hr, h]
  · simp [herror h, h, eq_comm (a := f)]

theorem tiaiC_eq_error_iff (params : Params) (r a : Str) (f : CommandFault) :
    tiaiC params r a = .error f ↔
      (f = .invalidInput ∧ alldigits r = false) ∨
      (f = .unsupportedCharacter ∧ alldigits r = true ∧ a.all (supported params.sixbitTable) = false) := by
  rcases tiaiC_cases params r a with ⟨hr, ha⟩ | ⟨hr, he⟩ | ⟨hr, ha, he⟩
  · simp [tiaiC_ok params hr ha, hr, ha]
  · simp [he, hr, eq_comm (a := f)]
  · simp [he, hr, ha, eq_comm (a := f)]

theorem dec6_eq_error_iff (params : Params) (bits : Bits) (n : BitVec 8) (f : CommandFault) :
    dec6 params bits n = .error f ↔ f = .invalidBitGroup ∧ BadGroups params.sixbitTable bits := by
  rcases dec6_cases params bits n with ⟨he, hbad⟩ | ⟨out, h6, hout, hok⟩
  · have hbad : BadGroups params.sixbitTable bits := hbad
    simp [he, hbad, eq_comm (a := f)]
  · have hgood : ¬ BadGroups params.sixbitTable bits := by
      rintro (hpartial | ⟨g, hg, h0, hrow⟩)
      · exact hpartial h6
      · cases (decodeGroups_bad hg h0 hrow).symm.trans hout
    simp [hok, hgood]

theorem enc6_eq_error_iff (params : Params) (text : Str) (n : BitVec 8) (f : CommandFault) :
    enc6 params text n = .error f ↔
      f = .unsupportedCharacter ∧ text.all (supported params.sixbitTable) = false := by
  cases htext : text.all (supported params.sixbitTable) with
  | true => simp [enc6_ok params n htext]
  | false => simp [enc6_error params n htext, eq_comm (a := f)]

/-- The table of 60_exceptions.md R217, command by command. -/
theorem commandResult_eq_error_iff (i : Instr) (f : CommandFault) : commandResult i = .error f ↔ Raises i f := by
  cases i with
  | gidDpci d c i s =>
    exact numerals_error_iff rfl (by simp) gidDpci_error (fun ⟨hd, hc, hi, hs⟩ => ⟨_, gidDpci_ok hd hc hi hs⟩)
      (by simp [GoodNumerals, decimalOperands, hexOperand]) f
  | gidGtin g s =>
    exact numerals_error_iff rfl (by simp) gidGtin_error (fun ⟨hg, hs⟩ => ⟨_, gidGtin_ok hg hs⟩)
      (by simp [GoodNumerals, decimalOperands, hexOperand]) f
  | sgtin g s p =>
    exact numerals_error_iff rfl (by simp) (sgtin_error block p) (fun ⟨hg, hs⟩ => ⟨_, sgtin_ok block p hg hs⟩)
      (by simp [GoodNumerals, decimalOperands, hexOperand]) f
  | tcin i s =>
    exact numerals_error_iff rfl (by simp) tcin_error (fun ⟨hi, hs⟩ => ⟨_, tcin_ok hi hs⟩)
      (by simp [GoodNumerals, decimalOperands, hexOperand]) f
  | tiaiD r a =>
    exact numerals_error_iff rfl (by simp) (tiaiD_error block) (fun ⟨hr, ha⟩ => ⟨_, tiaiD_ok block hr ha⟩)
      (by simp [GoodNumerals, decimalOperands, hexOperand]) f
  | tiaiH r a =>
    exact numerals_error_iff rfl (by simp) (tiaiH_error block) (fun ⟨hr, ha⟩ => ⟨_, tiaiH_ok block hr ha⟩)
      (by simp [GoodNumerals, decimalOperands, hexOperand]) f
  | chkdig d =>
    exact numerals_error_iff (i := .chkdig d) rfl (by simp)
      (fun hd => chkdig_error (Bool.eq_false_of_not_eq_true hd)) (fun hd => ⟨_, chkdig_ok hd⟩)
      (by simp [GoodNumerals, decimalOperands, hexOperand]) f
  | tiaiC r a =>
    refine (tiaiC_eq_error_iff block r a f).trans ?_
    cases f <;> simp [Raises, decimalOperands, hexOperand, sixbitText]
  | enc6 t n =>
    refine (enc6_eq_error_iff block t n f).trans ?_
    cases f <;> simp [Raises, decimalOperands, hexOperand, sixbitText]
  | dec6 b n =>
    refine (dec6_eq_error_iff block b n f).trans ?_
    cases f <;> simp [Raises, decimalOperands, hexOperand, sixbitText]
  | partq p =>
    have hok : commandResult (.partq p) ≠ .error f := nofun
    cases f <;> simp [Raises, decimalOperands, hexOperand, sixbitText, hok]

theorem code_injective : Function.Injective CommandFault.code := by
  intro f g
  cases f <;> cases g <;> decide

/-- `STATUS` shows a fault's code exactly if the command raises that fault. -/
theorem exec_status_eq_code_iff {i : Instr} {s t : State} (h : exec i s = .next t) (f : CommandFault) :
    t.regs.status = f.code ↔ Raises i f := by
  rw [← commandResult_eq_error_iff]
  rcases (exec_next_iff i s t).1 h with ⟨r, hr, rfl⟩ | ⟨g, hg, rfl⟩
  · have hcode : statusOk ≠ f.code := (code_ne_ok f).symm
    simp [hr, commandResult_status hr, hcode]
  · simp [hg, code_injective.eq_iff]

/-- A command's `STATUS` is `OK` or the code of one of the three faults of its operands. -/
theorem exec_status_cases {i : Instr} {s t : State} (h : exec i s = .next t) :
    t.regs.status = 0x1 ∨ t.regs.status = 0x2 ∨ t.regs.status = 0x3 ∨ t.regs.status = 0x4 := by
  rcases (exec_next_iff i s t).1 h with ⟨r, hr, rfl⟩ | ⟨f, hf, rfl⟩
  · exact .inl (commandResult_status hr)
  · cases f with
    | invalidInput => exact .inr (.inl rfl)
    | unsupportedCharacter => exact .inr (.inr (.inl rfl))
    | invalidBitGroup => exact .inr (.inr (.inr rfl))
    | illegalCommand => exact absurd rfl (commandResult_error hf)

/-- Settles O22: `STATUS` tells which condition on the operands holds, written out character by character and group by
group. -/
theorem faultExactlyWhen : Obligations.FaultExactlyWhen := by
  refine fun i s t h => ⟨(exec_status_eq_code_iff h .invalidInput).trans ?input,
    (exec_status_eq_code_iff h .unsupportedCharacter).trans ?text,
    (exec_status_eq_code_iff h .invalidBitGroup).trans ?groups, exec_status_cases h⟩
  case input => simp only [Raises, alldigits_eq_false_iff, allhex_eq_false_iff]
  case text => rw [Raises, all_supported_eq_false_iff]
  case groups => simp only [Raises, badGroups_iff]

/-- Settles O23: an illegal command is never decoded, and `TIAI.C` looks at its text after its reference only. -/
theorem faultPriority : Obligations.FaultPriority := by
  refine ⟨fun s c rest hpresents => (illegalCommandExactlyWhen s c rest hpresents).1, fun reference assetId s => ?_⟩
  obtain ⟨-, hreference, htext⟩ := tiaiCResult reference assetId s
  refine ⟨hreference, fun hgood hbad => htext hgood (List.all_eq_false.2 ?_)⟩
  simpa using hbad

end Sys2Proof.Machine

/-! Proofs of the statements on reset and hazards (70_reset_and_hazards.md). -/

namespace Sys2Proof.Machine

open Sys2Proof.Statements

/-! ### Progress (70_reset_and_hazards.md R244) -/

/-- Settles O12: a command's result is always retired, and every step takes the sample it looks at. -/
theorem everyStepCompletes : Obligations.EveryStepCompletes := ⟨exec_completes, step_completes⟩

/-! ### Reset (70_reset_and_hazards.md R240) -/

theorem event_of_rst {d : PortIn} (h : d.rst = true) : d.event = .reset := if_pos h

/-- Settles O9: `rst` decides what a sample means before anything else in it is looked at. -/
theorem resetClearsEverything : Obligations.ResetClearsEverything := by
  refine fun s valid c rest h => ⟨step_of_reset h (event_of_rst rfl), rfl, rfl, ?again⟩
  case again =>
    rintro valid' c' later rfl
    exact step_of_reset rfl (event_of_rst rfl)

/-! ### What a run shows (70_reset_and_hazards.md R241, R245) -/

theorem event_ne_hold {d : PortIn} (h : d.rst = true ∨ d.cmdValid = true) : d.event ≠ .hold := by
  unfold PortIn.event
  split
  case isTrue => exact nofun
  case isFalse hrst => simp [h.resolve_left hrst, cmdReady]

/-- A reset or a command leaves registers that do not depend on the ones before it (10_state.md R27, R31). -/
theorem step_forgets_regs {d : PortIn} (h : d.event ≠ .hold) :
    ∃ shown : ResultRegs, (d.event = .reset → shown = ResultRegs.cleared) ∧
      ∀ (r : ResultRegs) (later : List PortIn), step ⟨r, d :: later⟩ = .next ⟨shown, later⟩ := by
  cases hd : d.event with
  | hold => exact absurd hd h
  | reset => exact ⟨ResultRegs.cleared, fun _ => rfl, fun _ _ => step_of_reset rfl hd⟩
  | command c =>
    cases hc : decode c with
    | error e =>
      refine ⟨(takeFault .illegalCommand State.reset).regs, nofun, fun r later => ?_⟩
      rw [step_of_command rfl hd, hc]
      rfl
    | ok i =>
      obtain ⟨t, ht, -⟩ := exec_completes i State.reset
      refine ⟨t.regs, nofun, fun r later => ?_⟩
      rw [step_of_command rfl hd, hc]
      exact exec_regs_indep ht ⟨r, later⟩

theorem steps_one (s : State) : steps 1 s = step s := by
  obtain ⟨t, ht, -⟩ := step_completes s
  simp only [steps, ht]

/-- Settles O17: the earlier samples leave some registers, and the last event forgets which. -/
theorem runShowsItsLastEventOnly : Obligations.RunShowsItsLastEventOnly := by
  intro last hlast
  obtain ⟨shown, hreset, hstep⟩ := step_forgets_regs (event_ne_hold hlast)
  refine ⟨shown, fun hrst => hreset (event_of_rst hrst), fun r earlier later => ⟨?run, hstep r later⟩⟩
  case run =>
    obtain ⟨before, hbefore⟩ := steps_take earlier r (last :: later)
    rw [steps_add hbefore 1, steps_one, hstep]

/-- Settles O14: the run's last event is the reset. -/
theorem resetAfterCommandIsReset : Obligations.ResetAfterCommandIsReset := by
  intro r c c' valid rest
  obtain ⟨shown, hreset, hrun⟩ := runShowsItsLastEventOnly ⟨true, valid, c'⟩ (.inl rfl)
  obtain ⟨hsteps, -⟩ := hrun r [PortIn.present c] rest
  cases hreset rfl
  exact hsteps

end Sys2Proof.Machine
